-- ==== Sys2Proof/Word.lean ====
section
/-! DEFINITION. The word types of the machine: 00_scope.md R5 (every value is unsigned), R6 (bits numbered
from 0 at the least significant end), 10_state.md R10 to R13 (the widths). -/

namespace Sys2Proof

/-- An 8-bit value: a general register, a memory cell, an NN immediate (10_state.md R10, R15). -/
abbrev Byte := BitVec 8

/-- A 16-bit value: I, pc, a call-stack entry, an opcode (10_state.md R12 to R14, 30_encoding.md R60). -/
abbrev Word := BitVec 16

/-- A register field X or Y of an opcode: it selects V[0] .. V[15] (30_encoding.md R63). -/
abbrev RegIdx := BitVec 4

/-- An NNN field: a 12-bit byte address (30_encoding.md R63). -/
abbrev Addr12 := BitVec 12

end Sys2Proof
end

