-- ==== Sys2Proof/Config.lean ====
section
/-! DEFINITION. The parameters of 00_scope.md R4, and the two free values the spec leaves to the host.
A free value is a constant without a body: nothing can evaluate it, and whatever is proved holds for every
value of it. STACK_DEPTH, FONT and ROM are arguments: STACK_DEPTH is a field of State that no step writes
(log entry 1), FONT and ROM enter by the host's loads (log entry 6). -/

namespace Sys2Proof.Config

/-- MEM_SIZE: the number of memory cells. -/
def memSize : Nat := 4096

/-- FONT_BASE: the address of the first font byte. -/
def fontBase : Nat := 0

/-- PROG_BASE: the address of the first program byte. -/
def progBase : Nat := 512

/-- PC_RESET: the program counter after reset. -/
def pcReset : Word := 0x200#16

/-- INSN_BYTES: the bytes of an instruction. -/
def insnBytes : Nat := 2

/-- GLYPH_STRIDE: the bytes of one font glyph, used by LD F,Vx. -/
def glyphStride : Nat := 5

/-- DECODE_STRICT: the patterns of the opcode map are matched exactly (30_encoding.md R65, log entry 7). -/
def decodeStrict : Bool := true

/-- The recommended STACK_DEPTH of 00_scope.md R4. DESIGN CHOICE (log entry 1): it is only what State.reset
puts into the parameter's field, and no statement rests on it. -/
def recommendedStackDepth : Nat := 16

/-- RndByte(): the n-th byte the random source supplies (60_exceptions.md R197, 41_alu.md R110). FREE VALUE,
full range 0..255, under no law (log entry 2). -/
opaque randomByte : Nat → Byte

/-- PAUSE_EXTRA_CYCLE: whether the cycle already scheduled still runs after the n-th pause request
(48_cycle_scheduler.md R169). FREE VALUE (log entry 3). -/
opaque pauseExtraCycle : Nat → Bool

/-- The font most CHIP-8 hosts load (93_implementation_defined.md G2), glyph k at 5k. PRESUMED (log entry 10):
no rule depends on it and nothing of the machine uses it; it is a value a host may give for FONT. -/
def conventionalFont : List Byte :=
  [0xF0#8, 0x90#8, 0x90#8, 0x90#8, 0xF0#8] ++ [0x20#8, 0x60#8, 0x20#8, 0x20#8, 0x70#8] ++
  [0xF0#8, 0x10#8, 0xF0#8, 0x80#8, 0xF0#8] ++ [0xF0#8, 0x10#8, 0xF0#8, 0x10#8, 0xF0#8] ++
  [0x90#8, 0x90#8, 0xF0#8, 0x10#8, 0x10#8] ++ [0xF0#8, 0x80#8, 0xF0#8, 0x10#8, 0xF0#8] ++
  [0xF0#8, 0x80#8, 0xF0#8, 0x90#8, 0xF0#8] ++ [0xF0#8, 0x10#8, 0x20#8, 0x40#8, 0x40#8] ++
  [0xF0#8, 0x90#8, 0xF0#8, 0x90#8, 0xF0#8] ++ [0xF0#8, 0x90#8, 0xF0#8, 0x10#8, 0xF0#8] ++
  [0xF0#8, 0x90#8, 0xF0#8, 0x90#8, 0x90#8] ++ [0xE0#8, 0x90#8, 0xE0#8, 0x90#8, 0xE0#8] ++
  [0xF0#8, 0x80#8, 0x80#8, 0x80#8, 0xF0#8] ++ [0xE0#8, 0x90#8, 0x90#8, 0x90#8, 0xE0#8] ++
  [0xF0#8, 0x80#8, 0xF0#8, 0x80#8, 0xF0#8] ++ [0xF0#8, 0x80#8, 0xF0#8, 0x80#8, 0x80#8]

end Sys2Proof.Config
end

