-- ==== Sys2Proof/Syntax.lean ====
section
/-! DEFINITION. The instructions: one constructor for each row of the opcode map (30_encoding.md R66) and one
for the fallback row (R68, 44_unrecognized.md R150). A constructor carries every operand field of its pattern,
the ignored field Y of SHR and SHL included (R73), so that no bit of an opcode is lost. -/

namespace Sys2Proof

inductive Instr where
  /-- 0x00E0 CLS (43_display.md R140). -/
  | cls
  /-- 0x00EE RET (40_flow.md R80). -/
  | ret
  /-- 0x1NNN JP (R81). -/
  | jp (nnn : Addr12)
  /-- 0x2NNN CALL (R82). -/
  | call (nnn : Addr12)
  /-- 0x3XNN SE Vx,NN (R83). -/
  | seImm (x : RegIdx) (nn : Byte)
  /-- 0x4XNN SNE Vx,NN (R84). -/
  | sneImm (x : RegIdx) (nn : Byte)
  /-- 0x5XY0 SE Vx,Vy (R85). -/
  | seReg (x y : RegIdx)
  /-- 0x6XNN LD Vx,NN (41_alu.md R100). -/
  | ldImm (x : RegIdx) (nn : Byte)
  /-- 0x7XNN ADD Vx,NN (R101). -/
  | addImm (x : RegIdx) (nn : Byte)
  /-- 0x8XY0 LD Vx,Vy (R102). -/
  | ldReg (x y : RegIdx)
  /-- 0x8XY1 OR (R103). -/
  | orReg (x y : RegIdx)
  /-- 0x8XY2 AND (R104). -/
  | andReg (x y : RegIdx)
  /-- 0x8XY3 XOR (R105). -/
  | xorReg (x y : RegIdx)
  /-- 0x8XY4 ADD Vx,Vy (R106). -/
  | addReg (x y : RegIdx)
  /-- 0x8XY5 SUB Vx,Vy (R107). -/
  | subReg (x y : RegIdx)
  /-- 0x8XY6 SHR Vx (R108); field Y is carried and ignored (R73). -/
  | shr (x y : RegIdx)
  /-- 0x8XYE SHL Vx (R109); field Y is carried and ignored (R73). -/
  | shl (x y : RegIdx)
  /-- 0x9XY0 SNE Vx,Vy (40_flow.md R86). -/
  | sneReg (x y : RegIdx)
  /-- 0xANNN LD I,NNN (42_index_memory.md R120). -/
  | ldI (nnn : Addr12)
  /-- 0xCXNN RND Vx,NN (41_alu.md R110). -/
  | rnd (x : RegIdx) (nn : Byte)
  /-- 0xDXYN DRW Vx,Vy,N (43_display.md R141). -/
  | drw (x y : RegIdx) (n : BitVec 4)
  /-- 0xFX1E ADD I,Vx (42_index_memory.md R121). -/
  | addI (x : RegIdx)
  /-- 0xFX29 LD F,Vx (R122). -/
  | ldF (x : RegIdx)
  /-- 0xFX33 LD B,Vx (R123). -/
  | ldB (x : RegIdx)
  /-- 0xFX55 LD [I],Vx (R124). -/
  | storeRegs (x : RegIdx)
  /-- 0xFX65 LD Vx,[I] (R125). -/
  | loadRegs (x : RegIdx)
  /-- Any other opcode: the no-op NOP.UNRECOGNIZED (44_unrecognized.md R150). -/
  | unrecognized (op : Word)
  deriving DecidableEq, Repr

/-- `recognized` of the diagnostic event: 1 when some row of the map matches, 0 for the no-op
(48_cycle_scheduler.md R163). -/
def Instr.recognized : Instr → Bool
  | .unrecognized _ => false
  | _ => true

end Sys2Proof
end

