-- ==== Sys2Proof/WellFormed.lean ====
section
/-! DEFINITION. The opcode map's rows as the spec tabulates them (30_encoding.md R66), and the one check an
instruction needs: a field's width is its type, so only the no-op can be ill formed, by carrying an opcode that
some row selects (R68: it stands for the opcodes that match no row). -/

namespace Sys2Proof

/-- One row of the opcode map: an opcode `op` selects it when `op & mask = value` (30_encoding.md R66). -/
structure MapRow where
  mask : Word
  value : Word
  deriving DecidableEq, Repr

/-- `op & mask = match` of R66. -/
def MapRow.selects (r : MapRow) (op : Word) : Bool := op &&& r.mask == r.value

/-- The rows 1 to 18 of R66: classes 0 to 9. -/
def mapRowsLow : List MapRow :=
  [⟨0xFFFF#16, 0x00E0#16⟩, ⟨0xFFFF#16, 0x00EE#16⟩, ⟨0xF000#16, 0x1000#16⟩, ⟨0xF000#16, 0x2000#16⟩,
   ⟨0xF000#16, 0x3000#16⟩, ⟨0xF000#16, 0x4000#16⟩, ⟨0xF00F#16, 0x5000#16⟩, ⟨0xF000#16, 0x6000#16⟩,
   ⟨0xF000#16, 0x7000#16⟩] ++
  [⟨0xF00F#16, 0x8000#16⟩, ⟨0xF00F#16, 0x8001#16⟩, ⟨0xF00F#16, 0x8002#16⟩, ⟨0xF00F#16, 0x8003#16⟩,
   ⟨0xF00F#16, 0x8004#16⟩, ⟨0xF00F#16, 0x8005#16⟩, ⟨0xF00F#16, 0x8006#16⟩, ⟨0xF00F#16, 0x800E#16⟩,
   ⟨0xF00F#16, 0x9000#16⟩]

/-- The rows 19 to 26 of R66: classes 0xA to 0xF. -/
def mapRowsHigh : List MapRow :=
  [⟨0xF000#16, 0xA000#16⟩, ⟨0xF000#16, 0xC000#16⟩, ⟨0xF000#16, 0xD000#16⟩, ⟨0xF0FF#16, 0xF01E#16⟩,
   ⟨0xF0FF#16, 0xF029#16⟩, ⟨0xF0FF#16, 0xF033#16⟩, ⟨0xF0FF#16, 0xF055#16⟩, ⟨0xF0FF#16, 0xF065#16⟩]

/-- The opcode map, rows 1 to 26 of R66 in order. -/
def mapRows : List MapRow := mapRowsLow ++ mapRowsHigh

/-- Some row of the opcode map selects `op`. -/
def inMap (op : Word) : Bool := mapRows.any fun r => r.selects op

/-- The check: the no-op carries an opcode outside the map; every other instruction is well formed by its type. -/
def Instr.wf : Instr → Bool
  | .unrecognized op => !inMap op
  | _ => true

end Sys2Proof
end

