-- ==== Sys2Proof/Decode.lean ====
section
/-! DEFINITION. The Decoder (30_encoding.md R60 to R73): the six fields, the two-level dispatch, decoding of bytes
(total, rejecting by name), and after it the encoder, written from the same opcode map. -/

namespace Sys2Proof

/-! ### The Decoder's six outputs (R61; the letters of 00_scope.md R7) -/

/-- `op_x`, the class: bits 15..12. -/
def fieldClass (op : Word) : BitVec 4 := (op >>> 12).setWidth 4

/-- `op_y`, the letter X: bits 11..8. -/
def fieldX (op : Word) : RegIdx := (op >>> 8).setWidth 4

/-- `op_z`, the letter Y: bits 7..4. -/
def fieldY (op : Word) : RegIdx := (op >>> 4).setWidth 4

/-- `op_w`, the letter N: bits 3..0. -/
def fieldN (op : Word) : BitVec 4 := op.setWidth 4

/-- `op_zw`, the letters NN: bits 7..0. -/
def fieldNN (op : Word) : Byte := op.setWidth 8

/-- `op_yzw`, the letters NNN: bits 11..0. -/
def fieldNNN (op : Word) : Addr12 := op.setWidth 12

/-! ### Dispatch (R64, R65, R67) -/

/-- Class 0x0, selected by the low byte; with exact matching the second nibble must be 0 (R65). -/
def decodeClass0 (strict : Bool) (op : Word) : Instr :=
  if strict && fieldX op != 0#4 then .unrecognized op
  else match (fieldNN op).toNat with
    | 0xE0 => .cls
    | 0xEE => .ret
    | _ => .unrecognized op

/-- Classes 0x5 and 0x9: with exact matching the last nibble must be 0 (R65). -/
def decodeLastNibbleZero (strict : Bool) (op : Word) (i : Instr) : Instr :=
  if strict && fieldN op != 0#4 then .unrecognized op else i

/-- Class 0x8, selected by the low nibble (R67). -/
def decodeClass8 (op : Word) : Instr :=
  match (fieldN op).toNat with
  | 0x0 => .ldReg (fieldX op) (fieldY op)
  | 0x1 => .orReg (fieldX op) (fieldY op)
  | 0x2 => .andReg (fieldX op) (fieldY op)
  | 0x3 => .xorReg (fieldX op) (fieldY op)
  | 0x4 => .addReg (fieldX op) (fieldY op)
  | 0x5 => .subReg (fieldX op) (fieldY op)
  | 0x6 => .shr (fieldX op) (fieldY op)
  | 0xE => .shl (fieldX op) (fieldY op)
  | _ => .unrecognized op

/-- Class 0xF, selected by the low byte (R67). -/
def decodeClassF (op : Word) : Instr :=
  match (fieldNN op).toNat with
  | 0x1E => .addI (fieldX op)
  | 0x29 => .ldF (fieldX op)
  | 0x33 => .ldB (fieldX op)
  | 0x55 => .storeRegs (fieldX op)
  | 0x65 => .loadRegs (fieldX op)
  | _ => .unrecognized op

/-- Decoding of an opcode, total (R70), by class and then by the second level (R67). `strict` is the switch
DECODE_STRICT of R65. -/
def decodeOpcodeWith (strict : Bool) (op : Word) : Instr :=
  match (fieldClass op).toNat with
  | 0x0 => decodeClass0 strict op
  | 0x1 => .jp (fieldNNN op)
  | 0x2 => .call (fieldNNN op)
  | 0x3 => .seImm (fieldX op) (fieldNN op)
  | 0x4 => .sneImm (fieldX op) (fieldNN op)
  | 0x5 => decodeLastNibbleZero strict op (.seReg (fieldX op) (fieldY op))
  | 0x6 => .ldImm (fieldX op) (fieldNN op)
  | 0x7 => .addImm (fieldX op) (fieldNN op)
  | 0x8 => decodeClass8 op
  | 0x9 => decodeLastNibbleZero strict op (.sneReg (fieldX op) (fieldY op))
  | 0xA => .ldI (fieldNNN op)
  | 0xC => .rnd (fieldX op) (fieldNN op)
  | 0xD => .drw (fieldX op) (fieldY op) (fieldN op)
  | 0xF => decodeClassF op
  | _ => .unrecognized op

/-- The machine's decoder: DECODE_STRICT as 00_scope.md R4 fixes it. -/
def decodeOpcode (op : Word) : Instr := decodeOpcodeWith Config.decodeStrict op

/-! ### Bytes -/

/-- The opcode two consecutive bytes make, the more significant first (20_memory.md R42). -/
def wordOfBytes (hi lo : Byte) : Word := BitVec.ofNat 16 (hi.toNat * 256 + lo.toNat)

/-- The byte of an opcode that lies at the lower address: bits 15..8 (R42). -/
def highByte (op : Word) : Byte := (op >>> 8).setWidth 8

/-- The byte of an opcode that lies at the higher address: bits 7..0 (R42). -/
def lowByte (op : Word) : Byte := op.setWidth 8

/-- Why bytes do not decode. -/
inductive DecodeReject where
  /-- Fewer than the two bytes an instruction has (R60). -/
  | truncated
  deriving DecidableEq, Repr

/-- Decoding of bytes: the first instruction and the bytes after it. Every pair of bytes decodes (R70); fewer than
two bytes are rejected by name. -/
def decodeBytes : List Byte → Except DecodeReject (Instr × List Byte)
  | hi :: lo :: rest => .ok (decodeOpcode (wordOfBytes hi lo), rest)
  | _ => .error .truncated

/-- The instruction the decoder reads from a row of spec/opcode_table.json: bits numbered as the table numbers
them, the bits above `nbits` zero, laid out as the hardware stores them, high byte first. -/
def decodeTableWord (nbits w : Nat) : Option Instr :=
  let op : Word := BitVec.ofNat 16 (w % 2 ^ nbits)
  match decodeBytes [highByte op, lowByte op] with
  | .ok (i, _) => some i
  | .error _ => none

/-! ### The encoder (R66; the formats of R62) -/

/-- Formats A: class and NNN. -/
def encodeA (cls : Nat) (nnn : Addr12) : Word := BitVec.ofNat 16 (cls * 4096 + nnn.toNat)

/-- Formats I and F: class, X and a byte. -/
def encodeI (cls : Nat) (x : RegIdx) (nn : Byte) : Word := BitVec.ofNat 16 (cls * 4096 + x.toNat * 256 + nn.toNat)

/-- Formats R and D: class, X, Y and a nibble. -/
def encodeR (cls : Nat) (x y : RegIdx) (n : BitVec 4) : Word :=
  BitVec.ofNat 16 (cls * 4096 + x.toNat * 256 + y.toNat * 16 + n.toNat)

/-- The opcode of an instruction, by the patterns of R66; the no-op is the opcode it carries. -/
def encode : Instr → Word
  | .cls => 0x00E0#16
  | .ret => 0x00EE#16
  | .jp nnn => encodeA 0x1 nnn
  | .call nnn => encodeA 0x2 nnn
  | .seImm x nn => encodeI 0x3 x nn
  | .sneImm x nn => encodeI 0x4 x nn
  | .seReg x y => encodeR 0x5 x y 0x0#4
  | .ldImm x nn => encodeI 0x6 x nn
  | .addImm x nn => encodeI 0x7 x nn
  | .ldReg x y => encodeR 0x8 x y 0x0#4
  | .orReg x y => encodeR 0x8 x y 0x1#4
  | .andReg x y => encodeR 0x8 x y 0x2#4
  | .xorReg x y => encodeR 0x8 x y 0x3#4
  | .addReg x y => encodeR 0x8 x y 0x4#4
  | .subReg x y => encodeR 0x8 x y 0x5#4
  | .shr x y => encodeR 0x8 x y 0x6#4
  | .shl x y => encodeR 0x8 x y 0xE#4
  | .sneReg x y => encodeR 0x9 x y 0x0#4
  | .ldI nnn => encodeA 0xA nnn
  | .rnd x nn => encodeI 0xC x nn
  | .drw x y n => encodeR 0xD x y n
  | .addI x => encodeI 0xF x 0x1E#8
  | .ldF x => encodeI 0xF x 0x29#8
  | .ldB x => encodeI 0xF x 0x33#8
  | .storeRegs x => encodeI 0xF x 0x55#8
  | .loadRegs x => encodeI 0xF x 0x65#8
  | .unrecognized op => op

/-- An instruction's two bytes in memory order, high byte first (R60, 20_memory.md R42). -/
def encodeBytes (i : Instr) : List Byte := [highByte (encode i), lowByte (encode i)]

/-! ### Assembler syntax (R71) -/

/-- A hexadecimal digit, upper case as R71 writes it (V0 .. VF). -/
def hexDigit (n : Nat) : Char := "0123456789ABCDEF".toList.getD n '0'

/-- The low `w` hexadecimal digits of a number, the most significant first. -/
def hexDigits : Nat → Nat → List Char
  | 0, _ => []
  | w + 1, n => hexDigits w (n / 16) ++ [hexDigit (n % 16)]

/-- A register's name, V0 .. VF. -/
def regText (x : RegIdx) : String := "V" ++ String.ofList (hexDigits 1 x.toNat)

/-- A number of `w` hexadecimal digits as a literal: 2 for NN and 3 for NNN, as R71's examples have them (log entry 11). -/
def numText (w n : Nat) : String := "0x" ++ String.ofList (hexDigits w n)

/-- An instruction in the full syntax of R71; field Y of SHR and SHL is not written,
an opcode outside the map is data (log entry 11). -/
def assemblyText : Instr → String
  | .cls => "CLS"
  | .ret => "RET"
  | .jp nnn => "JP " ++ numText 3 nnn.toNat
  | .call nnn => "CALL " ++ numText 3 nnn.toNat
  | .seImm x nn => "SE " ++ regText x ++ "," ++ numText 2 nn.toNat
  | .sneImm x nn => "SNE " ++ regText x ++ "," ++ numText 2 nn.toNat
  | .seReg x y => "SE " ++ regText x ++ "," ++ regText y
  | .ldImm x nn => "LD " ++ regText x ++ "," ++ numText 2 nn.toNat
  | .addImm x nn => "ADD " ++ regText x ++ "," ++ numText 2 nn.toNat
  | .ldReg x y => "LD " ++ regText x ++ "," ++ regText y
  | .orReg x y => "OR " ++ regText x ++ "," ++ regText y
  | .andReg x y => "AND " ++ regText x ++ "," ++ regText y
  | .xorReg x y => "XOR " ++ regText x ++ "," ++ regText y
  | .addReg x y => "ADD " ++ regText x ++ "," ++ regText y
  | .subReg x y => "SUB " ++ regText x ++ "," ++ regText y
  | .shr x _ => "SHR " ++ regText x
  | .shl x _ => "SHL " ++ regText x
  | .sneReg x y => "SNE " ++ regText x ++ "," ++ regText y
  | .ldI nnn => "LD I," ++ numText 3 nnn.toNat
  | .rnd x nn => "RND " ++ regText x ++ "," ++ numText 2 nn.toNat
  | .drw x y n => "DRW " ++ regText x ++ "," ++ regText y ++ "," ++ toString n.toNat
  | .addI x => "ADD I," ++ regText x
  | .ldF x => "LD F," ++ regText x
  | .ldB x => "LD B," ++ regText x
  | .storeRegs x => "LD [I]," ++ regText x
  | .loadRegs x => "LD " ++ regText x ++ ",[I]"
  | .unrecognized op => "DW " ++ numText 4 op.toNat

end Sys2Proof
end

