-- ==== Sys2Proof/Machine/State.lean ====
section
/-! DEFINITION. The machine's state as plain data (10_state.md R10 to R24), the model's own fields beside it, the
reasons a step can stop, and the state right after reset. -/

namespace Sys2Proof.Machine

/-- Memory as the list of the cells that do not hold 0: addresses strictly rising, below 4096, no zero byte
(Memory.wf). An unlisted address reads as 0, Memory's reset contents (10_state.md R24, 20_memory.md R49). -/
abbrev Memory := List Host.Cell

/-- The Display Buffer: 32 rows from the top, 64 columns from the left, on or off (10_state.md R16). -/
abbrev Display := Vector (Vector Bool 64) 32

/-- The scheduler state (10_state.md R18). -/
inductive Sched where
  | running
  | paused
  | halted
  deriving DecidableEq, Repr

/-- The cause of a fatal halt (60_exceptions.md R181); `none` while no fault has occurred. -/
inductive FaultCause where
  | none
  | stackUnderflow
  | stackOverflow
  | fetchRange
  | dataRange
  deriving DecidableEq, Repr

/-- What the host does at a cycle boundary (60_exceptions.md R200), in the order it happens (log entry 4). -/
inductive HostAction where
  /-- The host does nothing at this boundary: the core may run the cycle that is armed (48_cycle_scheduler.md R173). -/
  | tick
  /-- 70_reset_and_hazards.md R210. -/
  | reset
  /-- The load port (20_memory.md R54). -/
  | load (addr : Nat) (byte : Byte)
  /-- 48_cycle_scheduler.md R171. -/
  | start
  /-- The pause toggle (48_cycle_scheduler.md R168). -/
  | toggle
  deriving DecidableEq, Repr

/-- What the core tells the host (48_cycle_scheduler.md R164, R165; 60_exceptions.md R186). -/
inductive Event where
  /-- The diagnostic of an executed instruction: the opcode, and whether it is in the map (R165, R198). -/
  | diag (op : Word) (recognized : Bool)
  /-- The render hand-off: the whole Display Buffer (R164). -/
  | render (disp : Display)
  /-- The report of a fatal halt (R186). -/
  | halted (cause : FaultCause) (pc op : Word)
  deriving DecidableEq, Repr

/-- The state. The fields down to `faultOpcode` are the spec's, all there are (10_state.md R22); the last five are
the model's own. -/
structure State where
  /-- V0 .. VF (R10); VF is the flag register (R11). -/
  V : Vector Byte 16
  /-- The index register (R12). -/
  I : Word
  /-- The program counter: the address of the next instruction to fetch; during an instruction, a + 2 (R13). -/
  pc : Word
  /-- The call stack, newest entry first; `depth` is its length (R14). -/
  stack : List Word
  /-- Memory (R15). -/
  mem : Memory
  /-- The Display Buffer (R16). -/
  disp : Display
  /-- The refresh-owed flag (R17). -/
  refreshOwed : Bool
  /-- The scheduler state (R18). -/
  sched : Sched
  /-- A cycle is scheduled and will run (R19). -/
  armed : Bool
  /-- The host has started the scheduler; loading is closed (R20). -/
  started : Bool
  /-- The fault record: the cause (R21). -/
  faultCause : FaultCause
  /-- The fault record: the pc of the failing cycle (R21). -/
  faultPc : Word
  /-- The fault record: the opcode of the failing cycle (R21). -/
  faultOpcode : Word
  /-- The model's own: the parameter STACK_DEPTH (00_scope.md R4), which no step writes (log entry 1). -/
  stackDepth : Nat
  /-- The model's own: how many random bytes have been drawn (log entry 2). -/
  rndDraws : Nat
  /-- The model's own: how many pause requests have drawn their choice (log entry 3). -/
  pauseDraws : Nat
  /-- The model's own: the host's actions still to come, first one first (log entry 4). -/
  hostActions : List HostAction
  /-- The model's own: the events the latest step emitted, first one first (log entry 5). -/
  emitted : List Event
  deriving DecidableEq, Repr

/-- Why the machine stops with a fault: never. Every fault the spec describes is the fatal halt, whose entry it
describes in full (60_exceptions.md R186), so it is a NEXT state with `sched = Halted`; there is no other fault to
name. Nothing raises one. Safe: no case is left out by it. -/
inductive Fault where
  deriving DecidableEq, Repr

/-- Why an instruction has no meaning. -/
inductive Refusal where
  /-- Raised by an arm of `exec` whose instruction has not been given its meaning; no arm raises it now. Safe. -/
  | notModelled (mnemonic : String)
  deriving DecidableEq, Repr

/-- The state right after reset (10_state.md R24). The five fields that are the model's own have no reset value in
the spec: DESIGN CHOICE (log entries 1 to 5). -/
def State.reset : State where
  V := Vector.replicate 16 0#8
  I := 0#16
  pc := Config.pcReset
  stack := []
  mem := []
  disp := Vector.replicate 32 (Vector.replicate 64 false)
  refreshOwed := false
  sched := .running
  armed := false
  started := false
  faultCause := .none
  faultPc := 0#16
  faultOpcode := 0#16
  stackDepth := Config.recommendedStackDepth
  rndDraws := 0
  pauseDraws := 0
  hostActions := []
  emitted := []

end Sys2Proof.Machine
end

