-- ==== Sys2Proof/Machine/Ops.lean ====
section
/-! DEFINITION. The named operations over registers, memory, the call stack and the display (the primitives of
00_scope.md R8), the fetch, and the fatal halt (60_exceptions.md R186) with the one way out of it, the reset event. -/

namespace Sys2Proof.Machine

/-! ### Memory -/

/-- What an address that is not listed reads as: 0, Memory's reset contents (10_state.md R24). -/
def Memory.unlisted : Byte := 0#8

/-- The byte at an address (20_memory.md R49: the last value written, or 0 if none was). -/
def Memory.read : Memory → Nat → Byte
  | [], _ => Memory.unlisted
  | c :: m, a => if c.1 = a then c.2 else Memory.read m a

/-- Memory with an address no longer listed. -/
def Memory.unlist (m : Memory) (a : Nat) : Memory := m.filter fun c => decide (c.1 ≠ a)

/-- Memory with a cell listed before the first higher address. -/
def Memory.insertCell (a : Nat) (b : Byte) : Memory → Memory
  | [] => [(a, b)]
  | c :: m => if a < c.1 then (a, b) :: c :: m else c :: Memory.insertCell a b m

/-- Memory with the byte at an address replaced (`MemWrite` of 00_scope.md R8). Writing 0 removes the entry. There is
no cell beyond 4095 (20_memory.md R40): every instruction checks its range before (R46), and the load port refuses such
an address (R54), so that nothing is written there. -/
def Memory.write (m : Memory) (a : Nat) (b : Byte) : Memory :=
  if a < Config.memSize then
    if b = Memory.unlisted then m.unlist a else Memory.insertCell a b (m.unlist a)
  else m

/-- The canonical form: addresses strictly rising, every address in Memory, no cell that reads as an unlisted one. -/
def Memory.wf : Memory → Bool
  | [] => true
  | c :: m => decide (c.1 < Config.memSize) && decide (c.2 ≠ Memory.unlisted) &&
      m.all (fun d => decide (c.1 < d.1)) && Memory.wf m

/-! ### Registers -/

/-- The flag register's index (10_state.md R11). -/
abbrev VF : RegIdx := 0xF#4

/-- `V[x]` (00_scope.md R8). -/
def State.reg (s : State) (x : RegIdx) : Byte := s.V[x.toNat]'x.isLt

/-- `V[x] <- b` (00_scope.md R8, 10_state.md R10). -/
def State.setReg (s : State) (x : RegIdx) (b : Byte) : State := { s with V := s.V.set x.toNat b x.isLt }

/-- `I <- w` (10_state.md R12). -/
def State.setI (s : State) (w : Word) : State := { s with I := w }

/-- `pc <- w` (10_state.md R13). -/
def State.setPc (s : State) (w : Word) : State := { s with pc := w }

/-- The fetch advance, `pc <- (pc + 2) mod 65536` (48_cycle_scheduler.md R162); a skip is one more (00_scope.md R9). -/
def State.advancePc (s : State) : State := s.setPc (s.pc + BitVec.ofNat 16 Config.insnBytes)

/-- The address the instruction being executed was fetched from: during Execute pc = (a + 2) mod 65536
(00_scope.md R9, log entry 8). -/
def State.fetchedFrom (s : State) : Word := s.pc - BitVec.ofNat 16 Config.insnBytes

/-! ### Call stack -/

/-- `Push(w)` (10_state.md R14). -/
def State.push (s : State) (w : Word) : State := { s with stack := w :: s.stack }

/-- The stack without its newest entry (`Pop()` of 10_state.md R14; what it returns is the list's head). -/
def State.dropTop (s : State) : State := { s with stack := s.stack.tail }

/-! ### Memory through the state -/

/-- `MemRead(a, 1)` (00_scope.md R8). -/
def State.readByte (s : State) (a : Nat) : Byte := s.mem.read a

/-- `MemWrite(a, 1, b)` (00_scope.md R8). -/
def State.writeByte (s : State) (a : Nat) (b : Byte) : State := { s with mem := s.mem.write a b }

/-- `MemRead(pc, 2)`, the fetch (20_memory.md R42, 48_cycle_scheduler.md R161): both bytes must be in Memory, else
there is none (FETCH_RANGE, 60_exceptions.md R184). -/
def State.fetchWord (s : State) : Option Word :=
  if s.pc.toNat + 1 < Config.memSize then
    some (wordOfBytes (s.readByte s.pc.toNat) (s.readByte (s.pc.toNat + 1)))
  else none

/-! ### Display -/

/-- `Disp[r][c]` (00_scope.md R8). -/
def Display.pixel (d : Display) (r : Fin 32) (c : Fin 64) : Bool := (d[r.val])[c.val]

/-- `Disp[r][c] <- b` (00_scope.md R8). -/
def Display.setPixel (d : Display) (r : Fin 32) (c : Fin 64) (b : Bool) : Display :=
  d.set r.val ((d[r.val]).set c.val b)

/-- The all-off buffer. -/
def Display.blank : Display := Vector.replicate 32 (Vector.replicate 64 false)

/-- The state with a pixel written. -/
def State.setPixel (s : State) (r : Fin 32) (c : Fin 64) (b : Bool) : State := { s with disp := s.disp.setPixel r c b }

/-- The state with the buffer cleared (43_display.md R140). -/
def State.clearDisplay (s : State) : State := { s with disp := Display.blank }

/-- `refresh_owed <- 1` (00_scope.md R8, 43_display.md R146). -/
def State.markRefresh (s : State) : State := { s with refreshOwed := true }

/-- The random byte of the next RND: a free value (60_exceptions.md R197, log entry 2). -/
def State.randomByte (s : State) : Byte := Config.randomByte s.rndDraws

/-- One more random byte has been drawn (log entry 2). -/
def State.countDraw (s : State) : State := { s with rndDraws := s.rndDraws + 1 }

/-! ### The fatal halt and the way out -/

/-- The 3-bit code of a cause (60_exceptions.md R181). -/
def FaultCause.code : FaultCause → BitVec 3
  | .none => 0#3
  | .stackUnderflow => 1#3
  | .stackOverflow => 2#3
  | .fetchRange => 3#3
  | .dataRange => 4#3

/-- The fatal-halt entry (60_exceptions.md R186), on the state with which the cycle began: `a` is its pc, `op` the
opcode, 0 when none was fetched. -/
def State.haltEntry (s : State) (cause : FaultCause) (a op : Word) : State :=
  { s with
    faultCause := cause
    faultPc := a
    faultOpcode := op
    sched := .halted
    armed := false
    emitted := s.emitted ++ [.halted cause a op] }

/-- `raise Halt(cause)` inside instruction `i`. Every check precedes every effect (20_memory.md R46), so all there is
to discard of the cycle is the fetch advance of pc (60_exceptions.md R187). The opcode is the one `i` was decoded from
(log entry 8). -/
def raiseHalt (cause : FaultCause) (i : Instr) (s : State) : Host.Outcome State Fault Refusal :=
  .next ((s.setPc s.fetchedFrom).haltEntry cause s.fetchedFrom (encode i))

/-- The reset event (70_reset_and_hazards.md R210), the only way out of Halted (60_exceptions.md R189): every piece of
the spec's state to its reset value. The parameter, the free values' counters and the host's further actions are not
state of the machine and stay (log entry 12); the event emits nothing. -/
def State.hostReset (s : State) : State :=
  { State.reset with
    stackDepth := s.stackDepth
    rndDraws := s.rndDraws
    pauseDraws := s.pauseDraws
    hostActions := s.hostActions }

end Sys2Proof.Machine
end

