-- ==== Sys2Proof/Machine/Flags.lean ====
section
/-! DEFINITION. The five values an instruction writes into VF as a flag (10_state.md R11, 41_alu.md R112,
43_display.md R143). -/

namespace Sys2Proof.Machine

/-- A flag's value in the 8-bit register: 1 or 0. -/
def flagByte (c : Bool) : Byte := if c then 1#8 else 0#8

/-- ADD Vx,Vy: 1 when the exact sum exceeds 255 (41_alu.md R106). -/
def carryFlag (sum : Nat) : Byte := flagByte (decide (sum > 255))

/-- SUB: 1 when Vx is strictly greater than Vy (41_alu.md R107, 90_conflicts.md C3). -/
def greaterFlag (a b : Byte) : Byte := flagByte (decide (a.toNat > b.toNat))

/-- SHR: bit 0 before the shift (41_alu.md R108). -/
def lowBitFlag (a : Byte) : Byte := a &&& 1#8

/-- SHL: bit 7 before the shift (41_alu.md R109). -/
def highBitFlag (a : Byte) : Byte := (a >>> 7) &&& 1#8

/-- DRW: 1 when the plotted pixel went from on to off (43_display.md R143). -/
def collisionFlag (old new : Bool) : Byte := flagByte (old && !new)

end Sys2Proof.Machine
end

