-- ==== Sys2Proof/Machine/Operands.lean ====
section
/-! DEFINITION. Operands and addresses: the zero-extended NNN (30_encoding.md R63), the one addressing mode I + k and
its range check (42_index_memory.md R126, 20_memory.md R46, R47), decimal digits, sprite coordinates. -/

namespace Sys2Proof.Machine

/-- NNN zero-extended to the 16 bits of pc or I (30_encoding.md R63). -/
def zextAddr (nnn : Addr12) : Word := nnn.setWidth 16

/-- The effective address I + k, exact (42_index_memory.md R126, 20_memory.md R47). -/
def State.dataAddr (s : State) (k : Nat) : Nat := s.I.toNat + k

/-- A data instruction that touches the `count` bytes from I on faults: it touches some, and the highest address
exceeds 4095 (20_memory.md R46). -/
def State.dataRangeFaults (s : State) (count : Nat) : Bool :=
  decide (1 ≤ count) && decide (s.dataAddr (count - 1) > 4095)

/-- The exact sum of two registers, 0..510 (41_alu.md R106). -/
def exactSum (a b : Byte) : Nat := a.toNat + b.toNat

/-- The glyph address Vx * 5 (42_index_memory.md R122). -/
def glyphAddr (b : Byte) : Word := BitVec.ofNat 16 (b.toNat * Config.glyphStride)

/-- The hundreds digit (42_index_memory.md R123). -/
def hundredsDigit (b : Byte) : Byte := BitVec.ofNat 8 (b.toNat / 100)

/-- The tens digit (R123). -/
def tensDigit (b : Byte) : Byte := BitVec.ofNat 8 (b.toNat / 10 % 10)

/-- The ones digit (R123). -/
def onesDigit (b : Byte) : Byte := BitVec.ofNat 8 (b.toNat % 10)

/-- The register whose index is the number `k` (used for k in 0..15). -/
def regNumber (k : Nat) : RegIdx := BitVec.ofNat 4 k

/-- The column of the sprite bit `b` for a start column Vx: (Vx + (7 - b)) mod 64 (43_display.md R142). -/
def spriteCol (vx : Byte) (b : Nat) : Fin 64 := Fin.ofNat 64 (vx.toNat + (7 - b))

/-- The screen row of the sprite row `r` for a start row Vy: (Vy + r) mod 32 (43_display.md R142). -/
def spriteRow (vy : Byte) (r : Nat) : Fin 32 := Fin.ofNat 32 (vy.toNat + r)

/-- The bit numbers of a sprite byte in plotting order, left to right on screen (43_display.md R141). -/
def bitOrder : List Nat := [7, 6, 5, 4, 3, 2, 1, 0]

end Sys2Proof.Machine
end

