-- ==== Sys2Proof/Machine/Alu.lean ====
section
/-! DEFINITION. Register load, arithmetic, logic, shift and random (41_alu.md R100 to R113). Statements run in the
order the spec writes them, each on the state the ones before it left: the flag first, the result last (R111). -/

namespace Sys2Proof.Machine

/-- LD Vx,NN (R100). -/
def execLdImm (x : RegIdx) (nn : Byte) (s : State) : Host.Outcome State Fault Refusal := .next (s.setReg x nn)

/-- ADD Vx,NN (R101): the carry is discarded, VF is not a flag here. -/
def execAddImm (x : RegIdx) (nn : Byte) (s : State) : Host.Outcome State Fault Refusal :=
  .next (s.setReg x (s.reg x + nn))

/-- LD Vx,Vy (R102). -/
def execLdReg (x y : RegIdx) (s : State) : Host.Outcome State Fault Refusal := .next (s.setReg x (s.reg y))

/-- OR Vx,Vy (R103). -/
def execOr (x y : RegIdx) (s : State) : Host.Outcome State Fault Refusal := .next (s.setReg x (s.reg x ||| s.reg y))

/-- AND Vx,Vy (R104). -/
def execAnd (x y : RegIdx) (s : State) : Host.Outcome State Fault Refusal := .next (s.setReg x (s.reg x &&& s.reg y))

/-- XOR Vx,Vy (R105). -/
def execXor (x y : RegIdx) (s : State) : Host.Outcome State Fault Refusal := .next (s.setReg x (s.reg x ^^^ s.reg y))

/-- ADD Vx,Vy (R106): the sum is taken before the flag is written. -/
def execAddReg (x y : RegIdx) (s : State) : Host.Outcome State Fault Refusal :=
  let sum := exactSum (s.reg x) (s.reg y)
  .next ((s.setReg VF (carryFlag sum)).setReg x (BitVec.ofNat 8 sum))

/-- SUB Vx,Vy (R107): the result is computed after the flag is written. -/
def execSubReg (x y : RegIdx) (s : State) : Host.Outcome State Fault Refusal :=
  let s₁ := s.setReg VF (greaterFlag (s.reg x) (s.reg y))
  .next (s₁.setReg x (s₁.reg x - s₁.reg y))

/-- SHR Vx (R108): field Y is ignored (30_encoding.md R73). -/
def execShr (x _y : RegIdx) (s : State) : Host.Outcome State Fault Refusal :=
  let s₁ := s.setReg VF (lowBitFlag (s.reg x))
  .next (s₁.setReg x (s₁.reg x >>> 1))

/-- SHL Vx (R109): field Y is ignored (30_encoding.md R73). -/
def execShl (x _y : RegIdx) (s : State) : Host.Outcome State Fault Refusal :=
  let s₁ := s.setReg VF (highBitFlag (s.reg x))
  .next (s₁.setReg x (s₁.reg x <<< 1))

/-- RND Vx,NN once the host has supplied the byte `r` (R110). -/
def rndWith (r : Byte) (x : RegIdx) (nn : Byte) (s : State) : State := (s.setReg x (r &&& nn)).countDraw

/-- RND Vx,NN (R110): the byte is a free value, a fresh one for each executed RND (log entry 2). -/
def execRnd (x : RegIdx) (nn : Byte) (s : State) : Host.Outcome State Fault Refusal := .next (rndWith s.randomByte x nn s)

end Sys2Proof.Machine
end

