-- ==== Sys2Proof/Machine/Display.lean ====
section
/-! DEFINITION. Display instructions (43_display.md R140 to R146). -/

namespace Sys2Proof.Machine

/-- CLS (R140): the refresh is owed whether or not a pixel changed (R146). -/
def execCls (s : State) : Host.Outcome State Fault Refusal := .next s.clearDisplay.markRefresh

/-- One bit of a sprite row: the position is taken from V[X] and V[Y] as they are now (R142), the pixel is
exclusive-ored, VF is overwritten with this pixel's collision (R143). -/
def plotBit (x y : RegIdx) (r : Nat) (byte : Byte) (s : State) (b : Nat) : State :=
  let col := spriteCol (s.reg x) b
  let row := spriteRow (s.reg y) r
  let old := s.disp.pixel row col
  let new := old ^^ byte.getLsbD b
  (s.setPixel row col new).setReg VF (collisionFlag old new)

/-- One sprite row: its byte from I + r, plotted bit 7 first (R141). -/
def plotRow (x y : RegIdx) (s : State) (r : Nat) : State :=
  bitOrder.foldl (plotBit x y r (s.readByte (s.dataAddr r))) s

/-- The sprite's N rows in order (R141); none when N = 0 (R144). -/
def drawSprite (x y : RegIdx) (n : Nat) (s : State) : State := (List.range n).foldl (plotRow x y) s

/-- DRW Vx,Vy,N (R141). -/
def execDrw (x y : RegIdx) (n : BitVec 4) (s : State) : Host.Outcome State Fault Refusal :=
  if s.dataRangeFaults n.toNat then raiseHalt .dataRange (.drw x y n) s
  else .next (drawSprite x y n.toNat s).markRefresh

end Sys2Proof.Machine
end

