-- ==== Sys2Proof/Machine/Flow.lean ====
section
/-! DEFINITION. Control transfer (40_flow.md R80 to R87). On entry pc = a + 2. -/

namespace Sys2Proof.Machine

/-- RET (R80, 60_exceptions.md R182). -/
def execRet (s : State) : Host.Outcome State Fault Refusal :=
  match s.stack with
  | [] => raiseHalt .stackUnderflow .ret s
  | w :: _ => .next (s.dropTop.setPc w)

/-- JP NNN (R81). -/
def execJp (nnn : Addr12) (s : State) : Host.Outcome State Fault Refusal := .next (s.setPc (zextAddr nnn))

/-- CALL NNN (R82, 60_exceptions.md R183): the pc pushed is already a + 2. -/
def execCall (nnn : Addr12) (s : State) : Host.Outcome State Fault Refusal :=
  if s.stack.length = s.stackDepth then raiseHalt .stackOverflow (.call nnn) s
  else .next ((s.push s.pc).setPc (zextAddr nnn))

/-- The skip: pc <- pc + 2 when the condition holds (R87). -/
def skipIf (c : Bool) (s : State) : State := if c then s.advancePc else s

/-- SE Vx,NN (R83). -/
def execSeImm (x : RegIdx) (nn : Byte) (s : State) : Host.Outcome State Fault Refusal :=
  .next (skipIf (s.reg x == nn) s)

/-- SNE Vx,NN (R84). -/
def execSneImm (x : RegIdx) (nn : Byte) (s : State) : Host.Outcome State Fault Refusal :=
  .next (skipIf (s.reg x != nn) s)

/-- SE Vx,Vy (R85). -/
def execSeReg (x y : RegIdx) (s : State) : Host.Outcome State Fault Refusal :=
  .next (skipIf (s.reg x == s.reg y) s)

/-- SNE Vx,Vy (R86). -/
def execSneReg (x y : RegIdx) (s : State) : Host.Outcome State Fault Refusal :=
  .next (skipIf (s.reg x != s.reg y) s)

end Sys2Proof.Machine
end

