-- ==== Sys2Proof/Machine/IndexMem.lean ====
section
/-! DEFINITION. Index-register and memory instructions (42_index_memory.md R120 to R126). The whole range is checked
before the first access (20_memory.md R46); I is never modified by an access (R126). -/

namespace Sys2Proof.Machine

/-- LD I,NNN (R120). -/
def execLdI (nnn : Addr12) (s : State) : Host.Outcome State Fault Refusal := .next (s.setI (zextAddr nnn))

/-- ADD I,Vx (R121): modulo 65536, not reduced to Memory's range, no flag. -/
def execAddI (x : RegIdx) (s : State) : Host.Outcome State Fault Refusal :=
  .next (s.setI (s.I + (s.reg x).setWidth 16))

/-- LD F,Vx (R122). -/
def execLdF (x : RegIdx) (s : State) : Host.Outcome State Fault Refusal := .next (s.setI (glyphAddr (s.reg x)))

/-- The three stores of LD B,Vx: hundreds, tens, ones at ascending addresses (R123). -/
def storeBcd (v : Byte) (s : State) : State :=
  ((s.writeByte (s.dataAddr 0) (hundredsDigit v)).writeByte (s.dataAddr 1) (tensDigit v)).writeByte (s.dataAddr 2)
    (onesDigit v)

/-- LD B,Vx (R123). -/
def execLdB (x : RegIdx) (s : State) : Host.Outcome State Fault Refusal :=
  if s.dataRangeFaults 3 then raiseHalt .dataRange (.ldB x) s else .next (storeBcd (s.reg x) s)

/-- `MemWrite(I + k, 1, V[k])` (R124). -/
def storeReg (s : State) (k : Nat) : State := s.writeByte (s.dataAddr k) (s.reg (regNumber k))

/-- LD [I],Vx (R124). -/
def execStoreRegs (x : RegIdx) (s : State) : Host.Outcome State Fault Refusal :=
  if s.dataRangeFaults (x.toNat + 1) then raiseHalt .dataRange (.storeRegs x) s
  else .next ((List.range (x.toNat + 1)).foldl storeReg s)

/-- `V[k] <- MemRead(I + k, 1)` (R125). -/
def loadReg (s : State) (k : Nat) : State := s.setReg (regNumber k) (s.readByte (s.dataAddr k))

/-- LD Vx,[I] (R125). -/
def execLoadRegs (x : RegIdx) (s : State) : Host.Outcome State Fault Refusal :=
  if s.dataRangeFaults (x.toNat + 1) then raiseHalt .dataRange (.loadRegs x) s
  else .next ((List.range (x.toNat + 1)).foldl loadReg s)

end Sys2Proof.Machine
end

