-- ==== Sys2Proof/Machine/Unrecognized.lean ====
section
/-! DEFINITION. The unrecognised-instruction no-op (44_unrecognized.md R150): pc is already a + 2, nothing else
changes; the cycle's diagnostic says `recognized = 0` (R152). -/

namespace Sys2Proof.Machine

/-- NOP.UNRECOGNIZED (R150). -/
def execUnrecognized (_op : Word) (s : State) : Host.Outcome State Fault Refusal := .next s

end Sys2Proof.Machine
end

