-- ==== Sys2Proof/Machine/Cycle.lean ====
section
/-! DEFINITION. The cycle (48_cycle_scheduler.md R160 to R166), the core between cycles (R173), the host's events
(60_exceptions.md R200) and the boot protocol (70_reset_and_hazards.md R211). -/

namespace Sys2Proof.Machine

/-! ### One cycle -/

/-- The diagnostic event of an executed instruction (48_cycle_scheduler.md R165, 44_unrecognized.md R152). -/
def emitDiag (op : Word) (i : Instr) (s : State) : State := { s with emitted := s.emitted ++ [.diag op i.recognized] }

/-- The render hand-off: if a refresh is owed, the buffer goes out and the flag is cleared (R164). -/
def renderHandOff (s : State) : State :=
  if s.refreshOwed then { s with emitted := s.emitted ++ [.render s.disp], refreshOwed := false } else s

/-- `armed <- 1 if sched = Running else 0` (R166). -/
def rearm (s : State) : State := { s with armed := decide (s.sched = .running) }

/-- What a cycle does after Execute (R160). A cycle whose instruction halted ends with the halt entry: no diagnostic,
no render, no rescheduling (60_exceptions.md R186). -/
def finishCycle (op : Word) (i : Instr) (s : State) : State :=
  if s.sched = .halted then s else rearm (renderHandOff (emitDiag op i s))

/-- One cycle (R160): fetch, advance pc, decode, execute, hand over the display, reschedule. -/
def cycle (s : State) : Host.Outcome State Fault Refusal :=
  match s.fetchWord with
  | none => .next (s.haltEntry .fetchRange s.pc 0#16)
  | some op =>
    match exec (decodeOpcode op) s.advancePc with
    | .next t => .next (finishCycle op (decodeOpcode op) t)
    | .fault r => .fault r
    | .refused r => .refused r

/-- A cycle is enabled: it is armed and the scheduler is not Halted (R160, R173). -/
def State.cycleEnabled (s : State) : Bool := s.armed && decide (s.sched ≠ .halted)

/-- The core at a boundary at which the host does nothing: the enabled cycle runs, else nothing changes (R173). -/
def coreStep (s : State) : Host.Outcome State Fault Refusal := if s.cycleEnabled then cycle s else .next s

/-! ### Host events -/

/-- The load port: open while `started = 0`, for an address in Memory; otherwise it does nothing (20_memory.md R54,
70_reset_and_hazards.md R213, log entry 13). -/
def hostLoad (addr : Nat) (b : Byte) (s : State) : State :=
  if s.started then s else if addr < Config.memSize then s.writeByte addr b else s

/-- The start event; refused, so without effect, once started (48_cycle_scheduler.md R171, log entry 13). -/
def hostStart (s : State) : State :=
  if s.started then s else { s with started := true, armed := decide (s.sched = .running) }

/-- A pause request whose free choice is `e`: the scheduled cycle is kept or cancelled (R169). -/
def pauseWith (e : Bool) (s : State) : State := { s with sched := .paused, armed := s.armed && e }

/-- A pause request: its choice is a free value (R169, log entry 3). -/
def hostPause (s : State) : State :=
  pauseWith (Config.pauseExtraCycle s.pauseDraws) { s with pauseDraws := s.pauseDraws + 1 }

/-- A resume: the next cycle is armed if the machine was started (R170). -/
def hostResume (s : State) : State := { s with sched := .running, armed := s.started || s.armed }

/-- The pause toggle (R168); ignored in Halted. -/
def hostToggle (s : State) : State :=
  match s.sched with
  | .running => hostPause s
  | .paused => hostResume s
  | .halted => s

/-- What a host action does at a cycle boundary (60_exceptions.md R200). -/
def takeAction (a : HostAction) (s : State) : Host.Outcome State Fault Refusal :=
  match a with
  | .tick => coreStep s
  | .reset => .next s.hostReset
  | .load addr b => .next (hostLoad addr b s)
  | .start => .next (hostStart s)
  | .toggle => .next (hostToggle s)

/-- The state at the start of a step: the output port is empty (log entry 5). -/
def State.clearEmitted (s : State) : State := { s with emitted := [] }

/-- The state once the host's next action has been taken off the list (log entry 4). -/
def State.dropAction (s : State) : State := { s with hostActions := s.hostActions.tail }

/-! ### Boot (70_reset_and_hazards.md R211) -/

/-- `load(base + k, bytes[k])` for k = 0 .. in order. -/
def loadActions (base : Nat) : List Byte → List HostAction
  | [] => []
  | b :: bs => .load base b :: loadActions (base + 1) bs

/-- The boot protocol: reset, the font from 0, the program from 512, start. -/
def bootActions (font rom : List Byte) : List HostAction :=
  .reset :: (loadActions Config.fontBase font ++ loadActions Config.progBase rom ++ [.start])

/-- The size limits of 70_reset_and_hazards.md R212. -/
def imageSizesOk (font rom : List Byte) : Bool :=
  decide (font.length ≤ Config.progBase) && decide (rom.length ≤ Config.memSize - Config.progBase)

/-- The machine with the boot protocol of a font and a program before it (log entry 6). -/
def State.booting (font rom : List Byte) : State := { State.reset with hostActions := bootActions font rom }

end Sys2Proof.Machine
end

