-- ==== Sys2Proof/Machine/Step.lean ====
section
/-! DEFINITION. One step of the machine: the host's next action at this cycle boundary, or, when none is pending, the
core (48_cycle_scheduler.md R172, R173). -/

namespace Sys2Proof.Machine

/-- One step. -/
def step (s : State) : Host.Outcome State Fault Refusal :=
  match s.hostActions with
  | [] => coreStep s.clearEmitted
  | a :: _ => takeAction a s.clearEmitted.dropAction

/-- The state with an instruction's word stored where the next cycle fetches and with that cycle enabled: the host has
no action pending, the scheduler is started, armed and not Halted, pc is fetchable (log entry 6). -/
def State.withFetchWord (s : State) (nbits w : Nat) : State :=
  let op : Word := BitVec.ofNat 16 (w % 2 ^ nbits)
  let a : Word := if s.pc.toNat + 1 < Config.memSize then s.pc else Config.pcReset
  { s with
    pc := a
    mem := (s.mem.write a.toNat (highByte op)).write (a.toNat + 1) (lowByte op)
    sched := if s.sched = .halted then .running else s.sched
    armed := true
    started := true
    hostActions := [] }

end Sys2Proof.Machine
end

