-- ==== Sys2Proof/Safety.lean ====
section
/-! DEFINITION. What claims are stated in: the invariant of every cycle boundary (10_state.md R25), what a fatal halt
leaves, and the parts of the state an instruction keeps. -/

namespace Sys2Proof.Machine

/-- A run is safe while the scheduler has not been halted by a fault (60_exceptions.md R180). -/
def State.safe (s : State) : Bool := decide (s.sched ≠ .halted)

/-- The invariant of every cycle boundary (10_state.md R25, R21), with Memory's canonical form. The widths it lists
are the fields' types. -/
structure Inv (s : State) : Prop where
  /-- Memory's canonical form (a fact about the representation). -/
  memory : s.mem.wf = true
  /-- pc is in 0..4098. -/
  pc : s.pc.toNat ≤ 4098
  /-- depth is at most STACK_DEPTH. -/
  depth : s.stack.length ≤ s.stackDepth
  /-- Every call-stack entry is in 2..4096. -/
  entries : ∀ w ∈ s.stack, 2 ≤ w.toNat ∧ w.toNat ≤ 4096
  /-- refresh_owed is 0. -/
  refresh : s.refreshOwed = false
  /-- There is a fault cause exactly when the scheduler is Halted. -/
  fault : s.faultCause ≠ .none ↔ s.sched = .halted
  /-- While there is no fault the record's other fields hold their reset value (R21). -/
  record : s.faultCause = .none → s.faultPc = 0#16 ∧ s.faultOpcode = 0#16
  /-- Halted is never armed. -/
  haltedNotArmed : s.sched = .halted → s.armed = false
  /-- Only a started machine halts (a cycle runs only when armed, R173). -/
  haltedStarted : s.sched = .halted → s.started = true
  /-- A machine not started is not armed. -/
  notStarted : s.started = false → s.armed = false

/-! ### What is kept -/

/-- Every general register but those in `P` reads as before. -/
def KeepsRegsBut (P : RegIdx → Prop) (s t : State) : Prop := ∀ k, ¬ P k → t.reg k = s.reg k

/-- Every byte of Memory but those at addresses in `P` reads as before. -/
def KeepsBytesBut (P : Nat → Prop) (s t : State) : Prop := ∀ a, ¬ P a → t.readByte a = s.readByte a

/-- Every byte of Memory reads as before. -/
def KeepsMemory (s t : State) : Prop := KeepsBytesBut (fun _ => False) s t

/-- Every pixel and the refresh-owed flag are as before. -/
def KeepsDisplay (s t : State) : Prop :=
  (∀ r c, t.disp.pixel r c = s.disp.pixel r c) ∧ t.refreshOwed = s.refreshOwed

/-- The scheduler's state, the fault record and the model's own fields but the count of random draws are as before. -/
structure KeepsControl (s t : State) : Prop where
  sched : t.sched = s.sched
  armed : t.armed = s.armed
  started : t.started = s.started
  faultCause : t.faultCause = s.faultCause
  faultPc : t.faultPc = s.faultPc
  faultOpcode : t.faultOpcode = s.faultOpcode
  stackDepth : t.stackDepth = s.stackDepth
  pauseDraws : t.pauseDraws = s.pauseDraws
  hostActions : t.hostActions = s.hostActions
  emitted : t.emitted = s.emitted

/-- The register instructions' frame: all but the general registers is as before. -/
structure KeepsAllButRegs (s t : State) : Prop where
  index : t.I = s.I
  pc : t.pc = s.pc
  stack : t.stack = s.stack
  memory : KeepsMemory s t
  display : KeepsDisplay s t
  draws : t.rndDraws = s.rndDraws
  control : KeepsControl s t

/-- The control transfers' frame: all but pc and the call stack is as before. -/
structure KeepsAllButFlow (s t : State) : Prop where
  regs : ∀ k, t.reg k = s.reg k
  index : t.I = s.I
  memory : KeepsMemory s t
  display : KeepsDisplay s t
  draws : t.rndDraws = s.rndDraws
  control : KeepsControl s t

/-- The index instructions' frame: all but I is as before. -/
structure KeepsAllButIndex (s t : State) : Prop where
  regs : ∀ k, t.reg k = s.reg k
  pc : t.pc = s.pc
  stack : t.stack = s.stack
  memory : KeepsMemory s t
  display : KeepsDisplay s t
  draws : t.rndDraws = s.rndDraws
  control : KeepsControl s t

/-- The storing instructions' frame: all but Memory is as before. -/
structure KeepsAllButMemory (s t : State) : Prop where
  regs : ∀ k, t.reg k = s.reg k
  index : t.I = s.I
  pc : t.pc = s.pc
  stack : t.stack = s.stack
  display : KeepsDisplay s t
  draws : t.rndDraws = s.rndDraws
  control : KeepsControl s t

/-- The drawing instructions' frame: all but VF, the pixels and the refresh-owed flag is as before. -/
structure KeepsAllButDrawing (s t : State) : Prop where
  regs : KeepsRegsBut (fun k => k = VF) s t
  index : t.I = s.I
  pc : t.pc = s.pc
  stack : t.stack = s.stack
  memory : KeepsMemory s t
  draws : t.rndDraws = s.rndDraws
  control : KeepsControl s t

/-- The program-visible state is exactly as before (60_exceptions.md R187). -/
structure SameProgramState (s t : State) : Prop where
  regs : t.V = s.V
  index : t.I = s.I
  pc : t.pc = s.pc
  stack : t.stack = s.stack
  memory : t.mem = s.mem
  display : t.disp = s.disp

/-- An instruction fetched from `a`, executed on `s`, ends in the fatal halt of 60_exceptions.md R186: the record is
written, the scheduler is Halted and not armed, the report is emitted, pc is `a` again and nothing else has changed. -/
def HaltsWith (o : Host.Outcome State Fault Refusal) (s : State) (cause : FaultCause) (a op : Word) : Prop :=
  ∃ t, o = .next t ∧ SameProgramState (s.setPc a) t ∧
    t.faultCause = cause ∧ t.faultPc = a ∧ t.faultOpcode = op ∧ t.sched = .halted ∧ t.armed = false ∧
    t.emitted = s.emitted ++ [.halted cause a op] ∧
    t.refreshOwed = s.refreshOwed ∧ t.started = s.started ∧ t.stackDepth = s.stackDepth ∧
    t.rndDraws = s.rndDraws ∧ t.pauseDraws = s.pauseDraws ∧ t.hostActions = s.hostActions

/-- `n` steps one after another (what Host.Core.run does of this machine). -/
def stepN : Nat → State → Host.Outcome State Fault Refusal
  | 0, s => .next s
  | n + 1, s =>
    match step s with
    | .next t => stepN n t
    | .fault r => .fault r
    | .refused r => .refused r

/-- The core's turn at this boundary: the host has no action pending, or lets the tick pass (log entry 4). -/
def State.coreTurn (s : State) : Prop := s.hostActions = [] ∨ s.hostActions.head? = some .tick

/-- Every piece of the spec's state holds its reset value (10_state.md R24). -/
structure HoldsResetValues (s : State) : Prop where
  regs : ∀ k, s.reg k = 0#8
  index : s.I = 0#16
  pc : s.pc.toNat = 512
  stack : s.stack = []
  memory : ∀ a, s.readByte a = 0#8
  display : ∀ r c, s.disp.pixel r c = false
  refresh : s.refreshOwed = false
  sched : s.sched = .running
  armed : s.armed = false
  started : s.started = false
  faultCause : s.faultCause = .none
  faultPc : s.faultPc = 0#16
  faultOpcode : s.faultOpcode = 0#16

/-- A host event that leaves the program-visible state, the refresh-owed flag, the fault record and the parameters as
they were, and emits nothing (48_cycle_scheduler.md R168). -/
structure KeepsAllButScheduler (s t : State) : Prop where
  program : SameProgramState s t
  refresh : t.refreshOwed = s.refreshOwed
  faultCause : t.faultCause = s.faultCause
  faultPc : t.faultPc = s.faultPc
  faultOpcode : t.faultOpcode = s.faultOpcode
  stackDepth : t.stackDepth = s.stackDepth
  rndDraws : t.rndDraws = s.rndDraws
  hostActions : t.hostActions = s.hostActions.tail
  emitted : t.emitted = []

/-! ### Which instructions do what -/

/-- CLS and DRW: the instructions that draw (43_display.md R146). -/
def drawsDisplay : Instr → Bool
  | .cls => true
  | .drw _ _ _ => true
  | _ => false

/-- The destination registers, VF as a flag among them (41_alu.md R113): which registers an instruction may write.
For DRW, VF; for LD Vx,[I], V0..Vx. -/
def mayWriteReg : Instr → RegIdx → Bool
  | .ldImm x _, k => k == x
  | .addImm x _, k => k == x
  | .ldReg x _, k => k == x
  | .orReg x _, k => k == x
  | .andReg x _, k => k == x
  | .xorReg x _, k => k == x
  | .rnd x _, k => k == x
  | .addReg x _, k => k == x || k == VF
  | .subReg x _, k => k == x || k == VF
  | .shr x _, k => k == x || k == VF
  | .shl x _, k => k == x || k == VF
  | .drw _ _ n, k => k == VF && n != 0#4
  | .loadRegs x, k => decide (k.toNat ≤ x.toNat)
  | _, _ => false

/-- The instructions that write I (10_state.md R12). -/
def mayWriteIndex : Instr → Bool
  | .ldI _ => true
  | .addI _ => true
  | .ldF _ => true
  | _ => false

/-- The instructions that write Memory (10_state.md R26). -/
def mayWriteMemory : Instr → Bool
  | .ldB _ => true
  | .storeRegs _ => true
  | _ => false

/-- The instructions that write the call stack (10_state.md R14). -/
def mayWriteStack : Instr → Bool
  | .call _ => true
  | .ret => true
  | _ => false

end Sys2Proof.Machine
end

