-- ==== Sys2Proof/Certificates/Slice0/Obligations.lean ====
section
/-! DEFINITION. The statements for the provers. Each says what a numbered rule of spec/ says; where a clause is the
model's own choice its docstring names the log entry. -/

open Sys2Proof Sys2Proof.Machine

/-! ### Shapes of results -/

/-- The instruction completes, register `x` then holds `v`, and nothing else has changed. -/
def WritesReg (o : Host.Outcome State Fault Refusal) (s : State) (x : RegIdx) (v : Nat) : Prop :=
  ∃ t, o = .next t ∧ (t.reg x).toNat = v ∧ KeepsRegsBut (fun k => k = x) s t ∧ KeepsAllButRegs s t

/-- The instruction completes, register `x` then holds `v`, VF holds the flag `f` unless `x` is VF, and nothing else has
changed. -/
def WritesRegAndFlag (o : Host.Outcome State Fault Refusal) (s : State) (x : RegIdx) (v f : Nat) : Prop :=
  ∃ t, o = .next t ∧ (t.reg x).toNat = v ∧ (x ≠ VF → (t.reg VF).toNat = f) ∧
    KeepsRegsBut (fun k => k = x ∨ k = VF) s t ∧ KeepsAllButRegs s t

/-- The instruction completes, pc is advanced by 2 more exactly when `c` holds, and nothing else has changed. -/
def SkipsWhen (o : Host.Outcome State Fault Refusal) (s : State) (c : Prop) : Prop :=
  ∃ t, o = .next t ∧ (c → t.pc = s.pc + 2#16) ∧ (¬ c → t.pc = s.pc) ∧ t.stack = s.stack ∧ KeepsAllButFlow s t

/-- The instruction completes, I then holds `v`, and nothing else has changed. -/
def WritesIndex (o : Host.Outcome State Fault Refusal) (s : State) (v : Nat) : Prop :=
  ∃ t, o = .next t ∧ t.I.toNat = v ∧ KeepsAllButIndex s t

/-! ### Encoding -/

/-- Decoding an encoded well-formed instruction gives it back, with every operand, whatever bytes follow. -/
def Obligations.DecodeOfEncodeIsIdentity : Prop :=
  ∀ (i : Instr) (rest : List Byte), i.wf = true → decodeBytes (encodeBytes i ++ rest) = .ok (i, rest)

/-- Every opcode value has exactly one meaning: decoding gives a well-formed instruction that encodes back to the
opcode, and no other well-formed instruction has that opcode (30_encoding.md R70). -/
def Obligations.EveryOpcodeHasOneMeaning : Prop :=
  ∀ op : Word, (decodeOpcode op).wf = true ∧ encode (decodeOpcode op) = op ∧
    decodeBytes [highByte op, lowByte op] = .ok (decodeOpcode op, []) ∧
    ∀ i : Instr, i.wf = true → encode i = op → i = decodeOpcode op

/-- The Decoder's six outputs, by the formulas of 30_encoding.md R61, and their overlap. -/
def Obligations.DecoderFieldsAreTheFormulas : Prop :=
  ∀ op : Word,
    (fieldClass op).toNat = (op.toNat >>> 12) &&& 0xF ∧ (fieldX op).toNat = (op.toNat >>> 8) &&& 0xF ∧
    (fieldY op).toNat = (op.toNat >>> 4) &&& 0xF ∧ (fieldN op).toNat = op.toNat &&& 0xF ∧
    (fieldNN op).toNat = op.toNat &&& 0xFF ∧ (fieldNNN op).toNat = op.toNat &&& 0xFFF ∧
    (fieldNN op).toNat = (fieldY op).toNat * 16 + (fieldN op).toNat ∧
    (fieldNNN op).toNat = (fieldX op).toNat * 256 + (fieldNN op).toNat

/-- Each row of the opcode map: an opcode with `op & mask = match` decodes to the row's instruction with the row's
operand fields (30_encoding.md R66, R63). -/
def Obligations.DecoderFollowsTheOpcodeMap : Prop :=
  ∀ op : Word,
    (op &&& 0xFFFF#16 = 0x00E0#16 → decodeOpcode op = .cls) ∧
    (op &&& 0xFFFF#16 = 0x00EE#16 → decodeOpcode op = .ret) ∧
    (op &&& 0xF000#16 = 0x1000#16 → decodeOpcode op = .jp (fieldNNN op)) ∧
    (op &&& 0xF000#16 = 0x2000#16 → decodeOpcode op = .call (fieldNNN op)) ∧
    (op &&& 0xF000#16 = 0x3000#16 → decodeOpcode op = .seImm (fieldX op) (fieldNN op)) ∧
    (op &&& 0xF000#16 = 0x4000#16 → decodeOpcode op = .sneImm (fieldX op) (fieldNN op)) ∧
    (op &&& 0xF00F#16 = 0x5000#16 → decodeOpcode op = .seReg (fieldX op) (fieldY op)) ∧
    (op &&& 0xF000#16 = 0x6000#16 → decodeOpcode op = .ldImm (fieldX op) (fieldNN op)) ∧
    (op &&& 0xF000#16 = 0x7000#16 → decodeOpcode op = .addImm (fieldX op) (fieldNN op)) ∧
    (op &&& 0xF00F#16 = 0x8000#16 → decodeOpcode op = .ldReg (fieldX op) (fieldY op)) ∧
    (op &&& 0xF00F#16 = 0x8001#16 → decodeOpcode op = .orReg (fieldX op) (fieldY op)) ∧
    (op &&& 0xF00F#16 = 0x8002#16 → decodeOpcode op = .andReg (fieldX op) (fieldY op)) ∧
    (op &&& 0xF00F#16 = 0x8003#16 → decodeOpcode op = .xorReg (fieldX op) (fieldY op)) ∧
    (op &&& 0xF00F#16 = 0x8004#16 → decodeOpcode op = .addReg (fieldX op) (fieldY op)) ∧
    (op &&& 0xF00F#16 = 0x8005#16 → decodeOpcode op = .subReg (fieldX op) (fieldY op)) ∧
    (op &&& 0xF00F#16 = 0x8006#16 → decodeOpcode op = .shr (fieldX op) (fieldY op)) ∧
    (op &&& 0xF00F#16 = 0x800E#16 → decodeOpcode op = .shl (fieldX op) (fieldY op)) ∧
    (op &&& 0xF00F#16 = 0x9000#16 → decodeOpcode op = .sneReg (fieldX op) (fieldY op)) ∧
    (op &&& 0xF000#16 = 0xA000#16 → decodeOpcode op = .ldI (fieldNNN op)) ∧
    (op &&& 0xF000#16 = 0xC000#16 → decodeOpcode op = .rnd (fieldX op) (fieldNN op)) ∧
    (op &&& 0xF000#16 = 0xD000#16 → decodeOpcode op = .drw (fieldX op) (fieldY op) (fieldN op)) ∧
    (op &&& 0xF0FF#16 = 0xF01E#16 → decodeOpcode op = .addI (fieldX op)) ∧
    (op &&& 0xF0FF#16 = 0xF029#16 → decodeOpcode op = .ldF (fieldX op)) ∧
    (op &&& 0xF0FF#16 = 0xF033#16 → decodeOpcode op = .ldB (fieldX op)) ∧
    (op &&& 0xF0FF#16 = 0xF055#16 → decodeOpcode op = .storeRegs (fieldX op)) ∧
    (op &&& 0xF0FF#16 = 0xF065#16 → decodeOpcode op = .loadRegs (fieldX op)) ∧
    (inMap op = false → decodeOpcode op = .unrecognized op)

/-- The rows of the opcode map are pairwise disjoint: an opcode selects at most one (30_encoding.md R66), and it selects
none exactly when the decoder answers the no-op (R68). -/
def Obligations.RowsAreDisjointAndTheRestIsUnrecognized : Prop :=
  ∀ op : Word, (mapRows.filter fun r => r.selects op).length ≤ 1 ∧
    ((mapRows.filter fun r => r.selects op) = [] ↔ decodeOpcode op = .unrecognized op) ∧
    ((mapRows.filter fun r => r.selects op) = [] ↔ (decodeOpcode op).recognized = false)

/-- The unrecognised space, class by class: exactly these opcodes decode to the no-op (44_unrecognized.md R151, but for
the counts). -/
def Obligations.UnrecognizedSpaceByClass : Prop :=
  ∀ op : Word, decodeOpcode op = .unrecognized op ↔
    ((fieldClass op).toNat = 0x0 ∧ op.toNat ≠ 0x00E0 ∧ op.toNat ≠ 0x00EE) ∨
    ((fieldClass op).toNat = 0x5 ∧ (fieldN op).toNat ≠ 0) ∨
    ((fieldClass op).toNat = 0x8 ∧ (fieldN op).toNat ∈ [0x7, 0x8, 0x9, 0xA, 0xB, 0xC, 0xD, 0xF]) ∨
    ((fieldClass op).toNat = 0x9 ∧ (fieldN op).toNat ≠ 0) ∨
    (fieldClass op).toNat = 0xB ∨ (fieldClass op).toNat = 0xE ∨
    ((fieldClass op).toNat = 0xF ∧ (fieldNN op).toNat ∉ [0x1E, 0x29, 0x33, 0x55, 0x65])

/-- The switch DECODE_STRICT: with it false 0x0XE0 is CLS, 0x0XEE is RET, 0x5XYn is SE Vx,Vy, 0x9XYn is SNE Vx,Vy, and
every other opcode decodes as it does with the switch true, which is the machine's decoder (30_encoding.md R65). -/
def Obligations.LooseDecodingChangesFourMasksOnly : Prop :=
  ∀ op : Word,
    (op &&& 0xF0FF#16 = 0x00E0#16 → decodeOpcodeWith false op = .cls) ∧
    (op &&& 0xF0FF#16 = 0x00EE#16 → decodeOpcodeWith false op = .ret) ∧
    (op &&& 0xF000#16 = 0x5000#16 → decodeOpcodeWith false op = .seReg (fieldX op) (fieldY op)) ∧
    (op &&& 0xF000#16 = 0x9000#16 → decodeOpcodeWith false op = .sneReg (fieldX op) (fieldY op)) ∧
    (op &&& 0xF0FF#16 ≠ 0x00E0#16 → op &&& 0xF0FF#16 ≠ 0x00EE#16 → op &&& 0xF000#16 ≠ 0x5000#16 →
      op &&& 0xF000#16 ≠ 0x9000#16 → decodeOpcodeWith false op = decodeOpcodeWith true op) ∧
    decodeOpcode op = decodeOpcodeWith true op

/-- A few words written out from the spec's encodings decode to the instructions they stand for: six of the shapes of
30_encoding.md R71, and 0x5121, which R65 names as unrecognised (R68). -/
def Obligations.WrittenWordsDecode : Prop :=
  decodeBytes [0x00#8, 0xEE#8] = .ok (.ret, []) ∧ decodeBytes [0x22#8, 0x0A#8] = .ok (.call 0x20A#12, []) ∧
  decodeBytes [0x6A#8, 0x3B#8] = .ok (.ldImm 0xA#4 0x3B#8, []) ∧
  decodeBytes [0x80#8, 0x15#8] = .ok (.subReg 0#4 1#4, []) ∧ decodeBytes [0xD0#8, 0x12#8] = .ok (.drw 0#4 1#4 2#4, []) ∧
  decodeBytes [0xF2#8, 0x55#8] = .ok (.storeRegs 2#4, []) ∧
  decodeBytes [0x51#8, 0x21#8] = .ok (.unrecognized 0x5121#16, [])

/-! ### Control transfer -/

/-- JP NNN: pc = NNN and nothing else changes (40_flow.md R81). -/
def Obligations.JumpSetsPc : Prop :=
  ∀ (nnn : Addr12) (s : State), ∃ t, exec (.jp nnn) s = .next t ∧ t.pc.toNat = nnn.toNat ∧ t.stack = s.stack ∧
    KeepsAllButFlow s t

/-- CALL NNN pushes the advanced pc and jumps; at STACK_DEPTH entries it halts with STACK_OVERFLOW (40_flow.md R82). -/
def Obligations.CallPushesPcOrOverflows : Prop :=
  ∀ (nnn : Addr12) (s : State),
    (s.stack.length ≠ s.stackDepth → ∃ t, exec (.call nnn) s = .next t ∧ t.pc.toNat = nnn.toNat ∧
      t.stack = s.pc :: s.stack ∧ KeepsAllButFlow s t) ∧
    (s.stack.length = s.stackDepth → ∀ a, s.pc = a + 2#16 →
      HaltsWith (exec (.call nnn) s) s .stackOverflow a (BitVec.ofNat 16 (0x2000 + nnn.toNat)))

/-- RET pops the newest entry into pc; on an empty stack it halts with STACK_UNDERFLOW (40_flow.md R80). -/
def Obligations.ReturnPopsPcOrUnderflows : Prop :=
  ∀ s : State,
    (∀ w ws, s.stack = w :: ws → ∃ t, exec .ret s = .next t ∧ t.pc = w ∧ t.stack = ws ∧ KeepsAllButFlow s t) ∧
    (s.stack = [] → ∀ a, s.pc = a + 2#16 → HaltsWith (exec .ret s) s .stackUnderflow a 0x00EE#16)

/-- A RET that finds the stack a CALL left resumes after that CALL (40_flow.md R82, 90_conflicts.md C9). -/
def Obligations.ReturnResumesAfterCall : Prop :=
  ∀ (nnn : Addr12) (s : State), s.stack.length ≠ s.stackDepth →
    ∃ t, exec (.call nnn) s = .next t ∧
      ∀ r : State, r.stack = t.stack → ∃ u, exec .ret r = .next u ∧ u.pc = s.pc ∧ u.stack = s.stack

/-- The four skips: SE Vx,NN, SNE Vx,NN, SE Vx,Vy, SNE Vx,Vy (40_flow.md R83 to R86). -/
def Obligations.SkipsCompareAndAdvance : Prop :=
  ∀ (x y : RegIdx) (nn : Byte) (s : State),
    SkipsWhen (exec (.seImm x nn) s) s ((s.reg x).toNat = nn.toNat) ∧
    SkipsWhen (exec (.sneImm x nn) s) s ((s.reg x).toNat ≠ nn.toNat) ∧
    SkipsWhen (exec (.seReg x y) s) s ((s.reg x).toNat = (s.reg y).toNat) ∧
    SkipsWhen (exec (.sneReg x y) s) s ((s.reg x).toNat ≠ (s.reg y).toNat)

/-! ### Register load, arithmetic, logic, shift, random -/

/-- LD Vx,NN, LD Vx,Vy, OR, AND, XOR: the result, and no flag (41_alu.md R100, R102 to R105). -/
def Obligations.LoadsAndLogicWriteVxOnly : Prop :=
  ∀ (x y : RegIdx) (nn : Byte) (s : State),
    WritesReg (exec (.ldImm x nn) s) s x nn.toNat ∧
    WritesReg (exec (.ldReg x y) s) s x (s.reg y).toNat ∧
    WritesReg (exec (.orReg x y) s) s x ((s.reg x).toNat ||| (s.reg y).toNat) ∧
    WritesReg (exec (.andReg x y) s) s x ((s.reg x).toNat &&& (s.reg y).toNat) ∧
    WritesReg (exec (.xorReg x y) s) s x ((s.reg x).toNat ^^^ (s.reg y).toNat)

/-- ADD Vx,NN wraps and writes no flag (41_alu.md R101). -/
def Obligations.AddImmediateWraps : Prop :=
  ∀ (x : RegIdx) (nn : Byte) (s : State), WritesReg (exec (.addImm x nn) s) s x (((s.reg x).toNat + nn.toNat) % 256)

/-- ADD Vx,Vy: the sum of the old values modulo 256, VF the carry unless X is VF (41_alu.md R106). -/
def Obligations.AddRegistersCarries : Prop :=
  ∀ (x y : RegIdx) (s : State),
    WritesRegAndFlag (exec (.addReg x y) s) s x (((s.reg x).toNat + (s.reg y).toNat) % 256)
      (if (s.reg x).toNat + (s.reg y).toNat > 255 then 1 else 0)

/-- SUB Vx,Vy: the flag is the strict comparison of the old values; the result reads V after the flag was written, so
that an operand that is VF is the flag (41_alu.md R107, R111). -/
def Obligations.SubtractAfterTheFlag : Prop :=
  ∀ (x y : RegIdx) (s : State),
    let f := if (s.reg x).toNat > (s.reg y).toNat then 1 else 0
    let a := if x = VF then f else (s.reg x).toNat
    let b := if y = VF then f else (s.reg y).toNat
    WritesRegAndFlag (exec (.subReg x y) s) s x ((a + 256 - b) % 256) f

/-- SHR Vx: the flag is the old bit 0, the result is shifted after the flag was written; field Y is ignored
(41_alu.md R108). -/
def Obligations.ShiftRightAfterTheFlag : Prop :=
  ∀ (x y : RegIdx) (s : State),
    let f := (s.reg x).toNat % 2
    let a := if x = VF then f else (s.reg x).toNat
    WritesRegAndFlag (exec (.shr x y) s) s x (a / 2) f

/-- SHL Vx: the flag is the old bit 7, the result is shifted after the flag was written; field Y is ignored
(41_alu.md R109). -/
def Obligations.ShiftLeftAfterTheFlag : Prop :=
  ∀ (x y : RegIdx) (s : State),
    let f := (s.reg x).toNat / 128
    let a := if x = VF then f else (s.reg x).toNat
    WritesRegAndFlag (exec (.shl x y) s) s x (a * 2 % 256) f

/-- RND Vx,NN: the random byte masked by NN, no bit outside NN, no flag; one byte is drawn, and nothing but Vx and the
count of draws changes (41_alu.md R110). It holds whatever byte the free value Config.randomByte is; that it is indexed
by a count of draws is the model's form (log entry 2). -/
def Obligations.RandomByteIsMasked : Prop :=
  ∀ (x : RegIdx) (nn : Byte) (s : State),
    WritesReg (exec (.rnd x nn) s) s.countDraw x ((Config.randomByte s.rndDraws).toNat &&& nn.toNat) ∧
    ∀ t, exec (.rnd x nn) s = .next t → ∀ b, nn.getLsbD b = false → (t.reg x).getLsbD b = false

/-! ### Index register and memory -/

/-- LD I,NNN, ADD I,Vx and LD F,Vx compute I, modulo 65536, and touch nothing else (42_index_memory.md R120 to R122). -/
def Obligations.IndexInstructionsWriteI : Prop :=
  ∀ (x : RegIdx) (nnn : Addr12) (s : State),
    WritesIndex (exec (.ldI nnn) s) s nnn.toNat ∧
    WritesIndex (exec (.addI x) s) s ((s.I.toNat + (s.reg x).toNat) % 65536) ∧
    WritesIndex (exec (.ldF x) s) s ((s.reg x).toNat * 5)

/-- LD B,Vx stores the three decimal digits at I, I + 1, I + 2 and nothing else, or halts with DATA_RANGE and stores
nothing (42_index_memory.md R123). -/
def Obligations.BcdStoresThreeDigits : Prop :=
  ∀ (x : RegIdx) (s : State),
    (s.I.toNat + 2 ≤ 4095 → ∃ t, exec (.ldB x) s = .next t ∧
      (t.readByte s.I.toNat).toNat = (s.reg x).toNat / 100 ∧
      (t.readByte (s.I.toNat + 1)).toNat = (s.reg x).toNat / 10 % 10 ∧
      (t.readByte (s.I.toNat + 2)).toNat = (s.reg x).toNat % 10 ∧
      KeepsBytesBut (fun a => s.I.toNat ≤ a ∧ a ≤ s.I.toNat + 2) s t ∧ KeepsAllButMemory s t) ∧
    (s.I.toNat + 2 > 4095 → ∀ a, s.pc = a + 2#16 →
      HaltsWith (exec (.ldB x) s) s .dataRange a (BitVec.ofNat 16 (0xF033 + x.toNat * 256)))

/-- LD [I],Vx stores V0..Vx at I..I + X and nothing else, or halts with DATA_RANGE and stores nothing
(42_index_memory.md R124). -/
def Obligations.StoreRegistersAtIndex : Prop :=
  ∀ (x : RegIdx) (s : State),
    (s.I.toNat + x.toNat ≤ 4095 → ∃ t, exec (.storeRegs x) s = .next t ∧
      (∀ k : RegIdx, k.toNat ≤ x.toNat → t.readByte (s.I.toNat + k.toNat) = s.reg k) ∧
      KeepsBytesBut (fun a => s.I.toNat ≤ a ∧ a ≤ s.I.toNat + x.toNat) s t ∧ KeepsAllButMemory s t) ∧
    (s.I.toNat + x.toNat > 4095 → ∀ a, s.pc = a + 2#16 →
      HaltsWith (exec (.storeRegs x) s) s .dataRange a (BitVec.ofNat 16 (0xF055 + x.toNat * 256)))

/-- LD Vx,[I] loads V0..Vx from I..I + X and nothing else, or halts with DATA_RANGE and loads nothing
(42_index_memory.md R125). -/
def Obligations.LoadRegistersFromIndex : Prop :=
  ∀ (x : RegIdx) (s : State),
    (s.I.toNat + x.toNat ≤ 4095 → ∃ t, exec (.loadRegs x) s = .next t ∧
      (∀ k : RegIdx, k.toNat ≤ x.toNat → t.reg k = s.readByte (s.I.toNat + k.toNat)) ∧
      KeepsRegsBut (fun k => k.toNat ≤ x.toNat) s t ∧ KeepsAllButRegs s t) ∧
    (s.I.toNat + x.toNat > 4095 → ∀ a, s.pc = a + 2#16 →
      HaltsWith (exec (.loadRegs x) s) s .dataRange a (BitVec.ofNat 16 (0xF065 + x.toNat * 256)))

/-- The exact conditions of DATA_RANGE: the four memory instructions halt with it exactly when the highest address
they would touch exceeds 4095, and the instructions that only compute I never do (60_exceptions.md R185). -/
def Obligations.DataRangeHaltsExactly : Prop :=
  ∀ (x y : RegIdx) (n : BitVec 4) (nnn : Addr12) (s : State) (a : Word), s.pc = a + 2#16 →
    (HaltsWith (exec (.drw x y n) s) s .dataRange a
        (BitVec.ofNat 16 (0xD000 + x.toNat * 256 + y.toNat * 16 + n.toNat)) ↔
      1 ≤ n.toNat ∧ s.I.toNat + n.toNat - 1 > 4095) ∧
    (HaltsWith (exec (.ldB x) s) s .dataRange a (BitVec.ofNat 16 (0xF033 + x.toNat * 256)) ↔ s.I.toNat + 2 > 4095) ∧
    (HaltsWith (exec (.storeRegs x) s) s .dataRange a (BitVec.ofNat 16 (0xF055 + x.toNat * 256)) ↔
      s.I.toNat + x.toNat > 4095) ∧
    (HaltsWith (exec (.loadRegs x) s) s .dataRange a (BitVec.ofNat 16 (0xF065 + x.toNat * 256)) ↔
      s.I.toNat + x.toNat > 4095) ∧
    ∀ op : Word, ¬ HaltsWith (exec (.ldI nnn) s) s .dataRange a op ∧ ¬ HaltsWith (exec (.addI x) s) s .dataRange a op ∧
      ¬ HaltsWith (exec (.ldF x) s) s .dataRange a op

/-- The bytes LD [I],Vx stored are what a later fetch from them reads, high byte at the lower address
(20_memory.md R53, R42). -/
def Obligations.FetchSeesStoredBytes : Prop :=
  ∀ (x k l : RegIdx) (s : State), s.I.toNat + x.toNat ≤ 4095 → l.toNat = k.toNat + 1 → l.toNat ≤ x.toNat →
    ∃ t, exec (.storeRegs x) s = .next t ∧
      ∀ u : State, u.mem = t.mem → u.pc.toNat = s.I.toNat + k.toNat →
        ∃ op : Word, u.fetchWord = some op ∧ op.toNat = (s.reg k).toNat * 256 + (s.reg l).toNat

/-! ### Display -/

/-- CLS: every pixel off, the refresh owed, nothing else (43_display.md R140). -/
def Obligations.ClearTurnsEveryPixelOff : Prop :=
  ∀ s : State, ∃ t, exec .cls s = .next t ∧ (∀ r c, t.disp.pixel r c = false) ∧ t.refreshOwed = true ∧
    t.reg VF = s.reg VF ∧ KeepsAllButDrawing s t

/-- A picture: the value of VF and which pixels are on. -/
structure Picture where
  vf : Nat
  on : Nat → Nat → Bool

/-- One bit of the draw algorithm on a picture, in the pseudocode of 43_display.md R141: the position is taken from the
registers as they are now, of which only VF changes during a draw. -/
def Picture.plot (x y : RegIdx) (vx vy r : Nat) (byte : Nat) (p : Picture) (b : Nat) : Picture :=
  let col := ((if x = VF then p.vf else vx) + (7 - b)) % 64
  let row := ((if y = VF then p.vf else vy) + r) % 32
  let old := p.on row col
  let new := old != decide (byte / 2 ^ b % 2 = 1)
  { vf := if old = true ∧ new = false then 1 else 0
    on := fun r' c' => if r' = row ∧ c' = col then new else p.on r' c' }

/-- The draw algorithm on a picture: rows in order, in each row bit 7 first (43_display.md R141). -/
def Picture.draw (x y : RegIdx) (vx vy : Nat) (bytes : Nat → Nat) (n : Nat) (p : Picture) : Picture :=
  (List.range n).foldl
    (fun p r => [7, 6, 5, 4, 3, 2, 1, 0].foldl (Picture.plot x y vx vy r (bytes r)) p) p

/-- DRW runs the draw algorithm of 43_display.md R141 for every X, Y and N, X or Y naming VF included: VF and every pixel
are what the algorithm leaves, the refresh is owed, nothing else changes; out of range it halts with nothing drawn. -/
def Obligations.DrawRunsTheAlgorithm : Prop :=
  ∀ (x y : RegIdx) (n : BitVec 4) (s : State),
    (n.toNat = 0 ∨ s.I.toNat + n.toNat - 1 ≤ 4095 → ∃ t, exec (.drw x y n) s = .next t ∧
      (∀ p : Picture, p.vf = (s.reg VF).toNat →
        (∀ (r : Fin 32) (c : Fin 64), p.on r.val c.val = s.disp.pixel r c) →
        (t.reg VF).toNat = (p.draw x y (s.reg x).toNat (s.reg y).toNat
          (fun r => (s.readByte (s.I.toNat + r)).toNat) n.toNat).vf ∧
        ∀ (r : Fin 32) (c : Fin 64), t.disp.pixel r c = (p.draw x y (s.reg x).toNat (s.reg y).toNat
          (fun r => (s.readByte (s.I.toNat + r)).toNat) n.toNat).on r.val c.val) ∧
      t.refreshOwed = true ∧ KeepsAllButDrawing s t) ∧
    (1 ≤ n.toNat → s.I.toNat + n.toNat - 1 > 4095 → ∀ a, s.pc = a + 2#16 →
      HaltsWith (exec (.drw x y n) s) s .dataRange a
        (BitVec.ofNat 16 (0xD000 + x.toNat * 256 + y.toNat * 16 + n.toNat)))

/-- With X and Y not VF, a pixel changes exactly when a set sprite bit lies on it: sprite row k, column j (bit 7 - j)
lies at row (Vy + k) mod 32, column (Vx + j) mod 64; nothing is clipped (43_display.md R141, R142). -/
def Obligations.DrawXorsTheSpriteWrapped : Prop :=
  ∀ (x y : RegIdx) (n : BitVec 4) (s : State), x ≠ VF → y ≠ VF → (n.toNat = 0 ∨ s.I.toNat + n.toNat - 1 ≤ 4095) →
    ∃ t, exec (.drw x y n) s = .next t ∧
      ∀ (r : Fin 32) (c : Fin 64),
        ((∃ k j : Nat, k < n.toNat ∧ j < 8 ∧ r.val = ((s.reg y).toNat + k) % 32 ∧ c.val = ((s.reg x).toNat + j) % 64 ∧
            (s.readByte (s.I.toNat + k)).getLsbD (7 - j) = true) →
          t.disp.pixel r c = !s.disp.pixel r c) ∧
        ((¬ ∃ k j : Nat, k < n.toNat ∧ j < 8 ∧ r.val = ((s.reg y).toNat + k) % 32 ∧ c.val = ((s.reg x).toNat + j) % 64 ∧
            (s.readByte (s.I.toNat + k)).getLsbD (7 - j) = true) →
          t.disp.pixel r c = s.disp.pixel r c)

/-- The collision flag is the last pixel's (43_display.md R143): for N >= 1 and X, Y not VF, VF is 1 exactly when bit 0
of the last sprite byte is set and the pixel it lies on was on, else 0. -/
def Obligations.CollisionFlagIsTheLastPixels : Prop :=
  ∀ (x y : RegIdx) (n : BitVec 4) (s : State), x ≠ VF → y ≠ VF → 1 ≤ n.toNat → s.I.toNat + n.toNat - 1 ≤ 4095 →
    ∃ t, exec (.drw x y n) s = .next t ∧
      ∀ (r : Fin 32) (c : Fin 64), r.val = ((s.reg y).toNat + n.toNat - 1) % 32 → c.val = ((s.reg x).toNat + 7) % 64 →
        (((s.readByte (s.I.toNat + n.toNat - 1)).toNat % 2 = 1 ∧ s.disp.pixel r c = true) → (t.reg VF).toNat = 1) ∧
        (¬ ((s.readByte (s.I.toNat + n.toNat - 1)).toNat % 2 = 1 ∧ s.disp.pixel r c = true) → (t.reg VF).toNat = 0)

/-- DRW with N = 0 plots nothing, leaves VF, owes a refresh and cannot fault, whatever I holds (43_display.md R144). -/
def Obligations.DrawOfNoRowsPlotsNothing : Prop :=
  ∀ (x y : RegIdx) (s : State), ∃ t, exec (.drw x y 0#4) s = .next t ∧ (∀ r c, t.disp.pixel r c = s.disp.pixel r c) ∧
    (∀ k, t.reg k = s.reg k) ∧ t.refreshOwed = true ∧ KeepsAllButDrawing s t

/-- Drawing twice with the same Vx, Vy, N, I and sprite bytes, X and Y not VF, and no other change of the buffer
between, restores the buffer (43_display.md R145). -/
def Obligations.DrawingTwiceRestoresTheBuffer : Prop :=
  ∀ (x y : RegIdx) (n : BitVec 4) (s : State), x ≠ VF → y ≠ VF → (n.toNat = 0 ∨ s.I.toNat + n.toNat - 1 ≤ 4095) →
    ∃ t, exec (.drw x y n) s = .next t ∧
      ∀ s' : State, s'.disp = t.disp → s'.I = s.I → s'.reg x = s.reg x → s'.reg y = s.reg y →
        (∀ k, k < n.toNat → s'.readByte (s.I.toNat + k) = s.readByte (s.I.toNat + k)) →
        ∃ u, exec (.drw x y n) s' = .next u ∧ u.disp = s.disp

/-! ### Unrecognised opcodes -/

/-- An opcode outside the map: executing it changes nothing; the cycle that fetches it advances pc by 2, emits the
diagnostic with recognized = 0 and no render, does not halt, and leaves all else as it was but armed, which the cycle's end
sets (44_unrecognized.md R150, R152). -/
def Obligations.UnrecognizedOpcodeIsNoOp : Prop :=
  (∀ (op : Word) (s : State), exec (.unrecognized op) s = .next s) ∧
  ∀ (s : State) (op : Word), s.coreTurn → s.cycleEnabled = true → s.refreshOwed = false → s.fetchWord = some op →
    inMap op = false →
    ∃ t, step s = .next t ∧ SameProgramState (s.setPc (s.pc + 2#16)) t ∧ t.emitted = [.diag op false] ∧
      t.refreshOwed = false ∧ t.sched = s.sched ∧ t.started = s.started ∧ t.faultCause = s.faultCause ∧
      t.faultPc = s.faultPc ∧ t.faultOpcode = s.faultOpcode

/-! ### All instructions -/

/-- exec and step always answer a next state. That no opcode traps is 30_encoding.md R70 and R68; the rest is the model's
choice: that a fatal halt is a next state (log entry 18; the entry is 60_exceptions.md R186), that a boundary with no
enabled cycle is an idle step (log entry 14), and that a refused host action is dropped (log entry 13). -/
def Obligations.EveryStepAnswersANextState : Prop :=
  (∀ (i : Instr) (s : State), ∃ t, exec i s = .next t) ∧ ∀ s : State, ∃ t, step s = .next t

/-- A general register changes only by an instruction that has it as a destination or, for VF, as its flag
(41_alu.md R113, 10_state.md R26). -/
def Obligations.RegistersChangeOnlyAsDestinations : Prop :=
  ∀ (i : Instr) (s t : State) (k : RegIdx), exec i s = .next t → mayWriteReg i k = false → t.reg k = s.reg k

/-- I, the call stack, Memory and the display change only by the instructions 10_state.md R26 lists; no instruction
changes the host's side of the scheduler or the parameters, and sched, armed and the fault record only by a fatal halt
(R167). -/
def Obligations.InstructionsWriteOnlyTheirState : Prop :=
  ∀ (i : Instr) (s t : State), exec i s = .next t →
    (mayWriteIndex i = false → t.I = s.I) ∧
    (mayWriteStack i = false → t.stack = s.stack) ∧
    (mayWriteMemory i = false → t.mem = s.mem) ∧
    (drawsDisplay i = false → t.disp = s.disp ∧ t.refreshOwed = s.refreshOwed) ∧
    t.started = s.started ∧ t.stackDepth = s.stackDepth ∧ t.pauseDraws = s.pauseDraws ∧ t.hostActions = s.hostActions ∧
    (t.sched ≠ .halted → KeepsControl s t) ∧ (t.sched = .halted → s.sched ≠ .halted → t.faultCause ≠ .none)

/-- refresh_owed is set by every CLS and every DRW that executes without faulting, and by no other instruction
(43_display.md R146). -/
def Obligations.RefreshOwedExactlyByDrawing : Prop :=
  ∀ (i : Instr) (s t : State), exec i s = .next t → s.sched ≠ .halted → s.refreshOwed = false →
    (t.refreshOwed = true ↔ drawsDisplay i = true ∧ t.sched ≠ .halted)

/-! ### The cycle -/

/-- When the bytes at pc decode to `i`, the step runs exec of `i` on the state with pc advanced by 2, the output port
emptied and the tick, if there is one, taken; then the cycle's end (48_cycle_scheduler.md R160 to R163). The host's list and
its tick, and the output port, are the model's form (log entries 4 and 5). -/
def Obligations.StepRunsTheDecodedInstruction : Prop :=
  ∀ (s : State) (i : Instr), s.coreTurn → s.cycleEnabled = true → s.pc.toNat ≤ 4094 →
    decodeBytes [s.readByte s.pc.toNat, s.readByte (s.pc.toNat + 1)] = .ok (i, []) →
    s.clearEmitted.dropAction.advancePc.pc = s.pc + 2#16 ∧
    step s = match exec i s.clearEmitted.dropAction.advancePc with
      | .next t => .next (finishCycle (wordOfBytes (s.readByte s.pc.toNat) (s.readByte (s.pc.toNat + 1))) i t)
      | .fault r => .fault r
      | .refused r => .refused r

/-- The end of a cycle: one diagnostic; one render carrying the buffer as it then is, exactly when the instruction drew;
the refresh-owed flag is cleared; another cycle is armed exactly when the scheduler is Running. A cycle that halts emits
the report instead (48_cycle_scheduler.md R164 to R166). -/
def Obligations.CycleEmitsAndReschedules : Prop :=
  ∀ (s t : State) (op : Word), s.coreTurn → s.cycleEnabled = true → s.refreshOwed = false → s.fetchWord = some op →
    step s = .next t →
    t.refreshOwed = false ∧
    (t.sched ≠ .halted →
      t.emitted = .diag op (decodeOpcode op).recognized :: (if drawsDisplay (decodeOpcode op) = true then [.render t.disp] else []) ∧
      t.sched = s.sched ∧ (t.armed = true ↔ s.sched = .running)) ∧
    (t.sched = .halted → t.emitted = [.halted t.faultCause t.faultPc t.faultOpcode] ∧ t.armed = false)

/-- A cycle that begins with pc > 4094 halts with FETCH_RANGE, recorded opcode 0, and no other cycle does
(60_exceptions.md R184). -/
def Obligations.FetchBeyondMemoryHalts : Prop :=
  ∀ s : State, s.coreTurn → s.cycleEnabled = true →
    (s.pc.toNat > 4094 → HaltsWith (step s) s.clearEmitted.dropAction .fetchRange s.pc 0#16) ∧
    (s.pc.toNat ≤ 4094 → ∀ t, step s = .next t → t.sched = .halted → t.faultCause ≠ .fetchRange)

/-- A step that halts is the halt entry and is precise: the program-visible state is the one before the cycle, pc is the
recorded pc, the recorded opcode is the one fetched or 0, the scheduler is Halted and not armed, the report is the only
event (60_exceptions.md R186, R187). -/
def Obligations.FatalHaltIsPrecise : Prop :=
  ∀ s t : State, step s = .next t → s.sched ≠ .halted → t.sched = .halted →
    SameProgramState s t ∧ t.pc = t.faultPc ∧ t.faultCause ≠ .none ∧ t.faultOpcode = s.fetchWord.getD 0#16 ∧
    t.armed = false ∧ t.refreshOwed = s.refreshOwed ∧ t.started = s.started ∧
    t.emitted = [.halted t.faultCause t.faultPc t.faultOpcode]

/-- Halted is left only by reset: any other step of a halted machine changes nothing but the host's list of actions and
the output port (60_exceptions.md R189). The invariant rules out states no run reaches. That a load or a start, which
20_memory.md R54, 70_reset_and_hazards.md R213 and 48_cycle_scheduler.md R171 do not enable then, is taken off the list
without effect is the model's reading (log entry 13), as are the list itself (log entry 4) and the idle step (log entry
14). -/
def Obligations.HaltedIsLeftOnlyByReset : Prop :=
  ∀ s : State, Inv s → s.sched = .halted →
    (s.hostActions.head? ≠ some .reset → step s = .next s.clearEmitted.dropAction) ∧
    (s.hostActions.head? = some .reset → ∃ t, step s = .next t ∧ t.sched = .running ∧ t.faultCause = .none)

/-- While no cycle is armed the core does nothing (48_cycle_scheduler.md R173). That this is a step, which takes the tick and
empties the output port, is the model's form (log entries 4, 5 and 14). -/
def Obligations.CoreIsIdleUnlessArmed : Prop :=
  ∀ s : State, s.coreTurn → s.armed = false → step s = .next s.clearEmitted.dropAction

/-- A jump to itself: the state at every cycle boundary from then on is the same (48_cycle_scheduler.md R174, 40_flow.md
R81). The empty list of the host's actions and the port that holds each step's diagnostic are the model's form (log entries
4 and 5). -/
def Obligations.JumpToItselfSpins : Prop :=
  ∀ (s : State) (op : Word), s.hostActions = [] → s.armed = true → s.sched = .running → s.refreshOwed = false →
    s.fetchWord = some op → op.toNat = 0x1000 + s.pc.toNat →
    ∀ n, stepN (n + 1) s = .next { s with emitted := [.diag op true] }

/-! ### The host and the scheduler -/

/-- The reset state holds the reset value of every piece of state (10_state.md R24). -/
def Obligations.ResetHoldsTheResetValues : Prop := HoldsResetValues State.reset

/-- The reset event, from any state, Halted and Paused included: every piece of state to its reset value, and no event
(70_reset_and_hazards.md R210). -/
def Obligations.ResetEventRestoresTheResetState : Prop :=
  ∀ (s : State) (rest : List HostAction), s.hostActions = .reset :: rest →
    ∃ t, step s = .next t ∧ HoldsResetValues t ∧ t.emitted = []

/-- The load port: before start a byte goes into Memory at an address in 0..4095 and nothing else changes; outside that
range, and after start, a load has no effect (20_memory.md R54, 70_reset_and_hazards.md R213). -/
def Obligations.LoadPortWritesOnlyBeforeStart : Prop :=
  ∀ (s : State) (addr : Nat) (b : Byte) (rest : List HostAction), s.hostActions = .load addr b :: rest →
    (s.started = false → addr ≤ 4095 → ∃ t, step s = .next t ∧ t.readByte addr = b ∧
      (∀ a, a ≠ addr → t.readByte a = s.readByte a) ∧
      t = { s with mem := t.mem, hostActions := rest, emitted := [] }) ∧
    (s.started = true ∨ addr > 4095 → step s = .next { s with hostActions := rest, emitted := [] })

/-- The start event: started, and the first cycle armed when the scheduler is Running; a second start is refused
(48_cycle_scheduler.md R171). That a refused action is dropped without effect is the model's reading (log entry 13). -/
def Obligations.StartArmsTheFirstCycle : Prop :=
  ∀ (s : State) (rest : List HostAction), s.hostActions = .start :: rest →
    (s.started = false → ∃ t, step s = .next t ∧ KeepsAllButScheduler s t ∧ t.started = true ∧ t.sched = s.sched ∧
      (t.armed = true ↔ s.sched = .running)) ∧
    (s.started = true → step s = .next { s with hostActions := rest, emitted := [] })

/-- The pause toggle: Running to Paused with the scheduled cycle kept or cancelled, by a free choice; Paused to Running,
arming a cycle if started; ignored in Halted; in every case nothing the program can see changes (48_cycle_scheduler.md
R168 to R170). That the choices are indexed by a count is the model's form (log entry 3). -/
def Obligations.TogglePausesAndResumes : Prop :=
  ∀ (s : State) (rest : List HostAction), s.hostActions = .toggle :: rest →
    ∃ t, step s = .next t ∧ KeepsAllButScheduler s t ∧ t.started = s.started ∧
      (s.sched = .running → t.sched = .paused ∧ t.armed = (s.armed && Config.pauseExtraCycle s.pauseDraws) ∧
        t.pauseDraws = s.pauseDraws + 1) ∧
      (s.sched = .paused → t.sched = .running ∧ (s.started = true → t.armed = true) ∧
        (s.started = false → t.armed = s.armed)) ∧
      (s.sched = .halted → t.sched = .halted ∧ t.armed = s.armed)

/-- A paused machine the host leaves alone runs at most one more cycle, then none (48_cycle_scheduler.md R169). The empty list
of the host's actions, the output port and the idle steps are the model's form (log entries 4, 5 and 14). -/
def Obligations.PausedMachineRunsAtMostOneMoreCycle : Prop :=
  ∀ s : State, s.sched = .paused → s.hostActions = [] →
    ∃ t, step s = .next t ∧ t.armed = false ∧
      ∀ n, stepN (n + 1) t = .next t.clearEmitted

/-- The boot protocol, from any state: after reset, the loads of a font and a program within the size limits, and start,
Memory holds the program from 512, the font from 0 and zero elsewhere; the registers, I, pc, the stack, the display, the
refresh-owed flag, sched and the fault record hold their reset values; the machine is started and its first cycle armed
(70_reset_and_hazards.md R211, R212). That the host's actions stand in a list, one a step, is the model's form (log
entries 4 and 6). -/
def Obligations.BootLoadsFontAndProgram : Prop :=
  ∀ (s : State) (font rom : List Byte), imageSizesOk font rom = true → s.hostActions = bootActions font rom →
    ∃ t, stepN (font.length + rom.length + 2) s = .next t ∧
      (∀ a, t.readByte a = if 512 ≤ a ∧ a < 512 + rom.length then rom.getD (a - 512) 0#8 else font.getD a 0#8) ∧
      (∀ k, t.reg k = 0#8) ∧ t.I = 0#16 ∧ t.pc.toNat = 512 ∧ t.stack = [] ∧ (∀ r c, t.disp.pixel r c = false) ∧
      t.refreshOwed = false ∧ t.sched = .running ∧ t.faultCause = .none ∧ t.faultPc = 0#16 ∧ t.faultOpcode = 0#16 ∧
      t.started = true ∧ t.armed = true ∧ t.hostActions = []

/-- No step changes the parameter STACK_DEPTH (00_scope.md R4: a parameter is fixed; that it is a field is log entry 1). -/
def Obligations.NoStepChangesTheStackDepth : Prop :=
  ∀ s t : State, step s = .next t → t.stackDepth = s.stackDepth

/-! ### The invariant of every cycle boundary -/

/-- The invariant of 10_state.md R25 holds at reset. -/
def Obligations.InvariantHoldsAtReset : Prop := Inv State.reset

/-- Every step keeps it, from every state that has it, whatever the host does (10_state.md R25). -/
def Obligations.EveryStepKeepsTheInvariant : Prop := ∀ s t : State, Inv s → step s = .next t → Inv t
end

