-- ==== Sys2Proof/Laws/Decode.lean ====
section
/-! SUPPORT. The decoder's fields, the encoder's words and the opcode map's masks as numbers, so that omega decides
what an opcode is. -/

namespace Sys2Proof

/-! ### The fields as numbers (30_encoding.md R61) -/

theorem Word.lt (op : Word) : op.toNat < 65536 := op.isLt

theorem fieldClass_toNat (op : Word) : (fieldClass op).toNat = op.toNat / 4096 := by
  have := Word.lt op
  simp only [fieldClass, BitVec.toNat_setWidth, BitVec.toNat_ushiftRight, Nat.shiftRight_eq_div_pow]
  omega

theorem fieldX_toNat (op : Word) : (fieldX op).toNat = op.toNat / 256 % 16 := by
  simp only [fieldX, BitVec.toNat_setWidth, BitVec.toNat_ushiftRight, Nat.shiftRight_eq_div_pow]

theorem fieldY_toNat (op : Word) : (fieldY op).toNat = op.toNat / 16 % 16 := by
  simp only [fieldY, BitVec.toNat_setWidth, BitVec.toNat_ushiftRight, Nat.shiftRight_eq_div_pow]

theorem fieldN_toNat (op : Word) : (fieldN op).toNat = op.toNat % 16 := by
  simp only [fieldN, BitVec.toNat_setWidth]

theorem fieldNN_toNat (op : Word) : (fieldNN op).toNat = op.toNat % 256 := by
  simp only [fieldNN, BitVec.toNat_setWidth]

theorem fieldNNN_toNat (op : Word) : (fieldNNN op).toNat = op.toNat % 4096 := by
  simp only [fieldNNN, BitVec.toNat_setWidth]

/-! ### The encoder's words as numbers (R66) -/

theorem encodeA_toNat {c : Nat} (nnn : Addr12) (h : c < 16) : (encodeA c nnn).toNat = c * 4096 + nnn.toNat := by
  have := nnn.isLt
  simp only [encodeA, BitVec.toNat_ofNat]
  omega

theorem encodeI_toNat {c : Nat} (x : RegIdx) (nn : Byte) (h : c < 16) :
    (encodeI c x nn).toNat = c * 4096 + x.toNat * 256 + nn.toNat := by
  have := nn.isLt
  have := x.isLt
  simp only [encodeI, BitVec.toNat_ofNat]
  omega

theorem encodeR_toNat {c : Nat} (x y : RegIdx) (n : BitVec 4) (h : c < 16) :
    (encodeR c x y n).toNat = c * 4096 + x.toNat * 256 + y.toNat * 16 + n.toNat := by
  have := n.isLt
  have := x.isLt
  have := y.isLt
  simp only [encodeR, BitVec.toNat_ofNat]
  omega

/-! ### Bytes (20_memory.md R42) -/

theorem highByte_toNat (op : Word) : (highByte op).toNat = op.toNat / 256 := by
  have := Word.lt op
  simp only [highByte, BitVec.toNat_setWidth, BitVec.toNat_ushiftRight, Nat.shiftRight_eq_div_pow]
  omega

theorem lowByte_toNat (op : Word) : (lowByte op).toNat = op.toNat % 256 := by
  simp only [lowByte, BitVec.toNat_setWidth]

theorem wordOfBytes_toNat (hi lo : Byte) : (wordOfBytes hi lo).toNat = hi.toNat * 256 + lo.toNat := by
  have := hi.isLt
  have := lo.isLt
  simp only [wordOfBytes, BitVec.toNat_ofNat]
  omega

/-- An opcode laid out as two bytes is read back as the same opcode. -/
@[simp] theorem wordOfBytes_highByte_lowByte (op : Word) : wordOfBytes (highByte op) (lowByte op) = op := by
  apply BitVec.eq_of_toNat_eq
  rw [wordOfBytes_toNat, highByte_toNat, lowByte_toNat]
  omega

@[simp] theorem decodeBytes_pair (hi lo : Byte) (rest : List Byte) :
    decodeBytes (hi :: lo :: rest) = .ok (decodeOpcode (wordOfBytes hi lo), rest) := rfl

/-! ### The masks of the opcode map as numbers (R66) -/

theorem mask_F000 (op : Word) : (op &&& 0xF000#16).toNat = op.toNat / 4096 * 4096 := by
  have h : op &&& 0xF000#16 = (op >>> 12) <<< 12 := by
    apply BitVec.eq_of_getLsbD_eq
    intro i hi
    interval_cases i <;> simp
  have := Word.lt op
  rw [h]
  simp only [BitVec.toNat_shiftLeft, BitVec.toNat_ushiftRight, Nat.shiftRight_eq_div_pow, Nat.shiftLeft_eq]
  omega

theorem mask_F00F (op : Word) : (op &&& 0xF00F#16).toNat = op.toNat / 4096 * 4096 + op.toNat % 16 := by
  have h : op &&& 0xF00F#16 = (op >>> 12) <<< 12 ||| (op.setWidth 4).setWidth 16 := by
    apply BitVec.eq_of_getLsbD_eq
    intro i hi
    interval_cases i <;> simp
  have := Word.lt op
  have e : (op.toNat / 4096) <<< 12 + op.toNat % 16 = (op.toNat / 4096) <<< 12 ||| op.toNat % 16 :=
    Nat.shiftLeft_add_eq_or_of_lt (by omega) _
  rw [h]
  simp only [BitVec.toNat_or, BitVec.toNat_shiftLeft, BitVec.toNat_ushiftRight, BitVec.toNat_setWidth,
    Nat.shiftRight_eq_div_pow]
  have e1 : (op.toNat / 2 ^ 12) <<< 12 % 2 ^ 16 = (op.toNat / 4096) <<< 12 := by
    rw [Nat.shiftLeft_eq]; omega
  have e2 : op.toNat % 2 ^ 4 % 2 ^ 16 = op.toNat % 16 := by omega
  rw [e1, e2, ← e, Nat.shiftLeft_eq]

theorem mask_F0FF (op : Word) : (op &&& 0xF0FF#16).toNat = op.toNat / 4096 * 4096 + op.toNat % 256 := by
  have h : op &&& 0xF0FF#16 = (op >>> 12) <<< 12 ||| (op.setWidth 8).setWidth 16 := by
    apply BitVec.eq_of_getLsbD_eq
    intro i hi
    interval_cases i <;> simp
  have := Word.lt op
  have e : (op.toNat / 4096) <<< 12 + op.toNat % 256 = (op.toNat / 4096) <<< 12 ||| op.toNat % 256 :=
    Nat.shiftLeft_add_eq_or_of_lt (by omega) _
  rw [h]
  simp only [BitVec.toNat_or, BitVec.toNat_shiftLeft, BitVec.toNat_ushiftRight, BitVec.toNat_setWidth,
    Nat.shiftRight_eq_div_pow]
  have e1 : (op.toNat / 2 ^ 12) <<< 12 % 2 ^ 16 = (op.toNat / 4096) <<< 12 := by
    rw [Nat.shiftLeft_eq]; omega
  have e2 : op.toNat % 2 ^ 8 % 2 ^ 16 = op.toNat % 256 := by omega
  rw [e1, e2, ← e, Nat.shiftLeft_eq]

/-- `op & mask = match` as an equation of numbers. -/
theorem selects_iff (m v op : Word) : (MapRow.mk m v).selects op = true ↔ (op &&& m).toNat = v.toNat := by
  simp only [MapRow.selects, beq_iff_eq]
  exact ⟨fun h => by rw [h], BitVec.eq_of_toNat_eq⟩

theorem mask_FFFF (op : Word) : (op &&& 0xFFFF#16).toNat = op.toNat := by
  rw [show op &&& 0xFFFF#16 = op from BitVec.and_allOnes]

theorem mask_F000_eq (q c : Nat) : q * 4096 = c * 4096 ↔ q = c := by omega

theorem mask_low_eq {b q r c n : Nat} (hb : b ≤ 4096) (hr : r < b) (hn : n < b) :
    q * 4096 + r = c * 4096 + n ↔ q = c ∧ r = n := by
  omega

/-- What it takes to be in the opcode map, row by row, as equations of numbers. -/
theorem inMap_iff (op : Word) : inMap op = true ↔
    op.toNat = 0x00E0 ∨ op.toNat = 0x00EE ∨ op.toNat / 4096 = 1 ∨ op.toNat / 4096 = 2 ∨ op.toNat / 4096 = 3 ∨
    op.toNat / 4096 = 4 ∨ (op.toNat / 4096 = 5 ∧ op.toNat % 16 = 0) ∨ op.toNat / 4096 = 6 ∨ op.toNat / 4096 = 7 ∨
    (op.toNat / 4096 = 8 ∧ op.toNat % 16 = 0) ∨ (op.toNat / 4096 = 8 ∧ op.toNat % 16 = 1) ∨
    (op.toNat / 4096 = 8 ∧ op.toNat % 16 = 2) ∨ (op.toNat / 4096 = 8 ∧ op.toNat % 16 = 3) ∨
    (op.toNat / 4096 = 8 ∧ op.toNat % 16 = 4) ∨ (op.toNat / 4096 = 8 ∧ op.toNat % 16 = 5) ∨
    (op.toNat / 4096 = 8 ∧ op.toNat % 16 = 6) ∨ (op.toNat / 4096 = 8 ∧ op.toNat % 16 = 0xE) ∨
    (op.toNat / 4096 = 9 ∧ op.toNat % 16 = 0) ∨ op.toNat / 4096 = 0xA ∨ op.toNat / 4096 = 0xC ∨
    op.toNat / 4096 = 0xD ∨ (op.toNat / 4096 = 0xF ∧ op.toNat % 256 = 0x1E) ∨
    (op.toNat / 4096 = 0xF ∧ op.toNat % 256 = 0x29) ∨ (op.toNat / 4096 = 0xF ∧ op.toNat % 256 = 0x33) ∨
    (op.toNat / 4096 = 0xF ∧ op.toNat % 256 = 0x55) ∨ (op.toNat / 4096 = 0xF ∧ op.toNat % 256 = 0x65) := by
  have hn : op.toNat % 16 < 16 := Nat.mod_lt _ (by decide)
  have hb : op.toNat % 256 < 256 := Nat.mod_lt _ (by decide)
  have n16 (c n : Nat) (h : n < 16) := mask_low_eq (b := 16) (q := op.toNat / 4096) (c := c) (n := n) (by decide) hn h
  have n256 (c n : Nat) (h : n < 256) := mask_low_eq (b := 256) (q := op.toNat / 4096) (c := c) (n := n) (by decide) hb h
  simp only [inMap, mapRows, mapRowsLow, mapRowsHigh, List.cons_append, List.nil_append, List.any_cons, List.any_nil,
    Bool.or_eq_true, Bool.false_eq_true, or_false, selects_iff, mask_FFFF, mask_F000, mask_F00F, mask_F0FF]
  exact or_congr Iff.rfl <| or_congr Iff.rfl <| or_congr (mask_F000_eq _ 1) <| or_congr (mask_F000_eq _ 2) <|
    or_congr (mask_F000_eq _ 3) <| or_congr (mask_F000_eq _ 4) <| or_congr (n16 5 0 (by decide)) <|
    or_congr (mask_F000_eq _ 6) <| or_congr (mask_F000_eq _ 7) <| or_congr (n16 8 0 (by decide)) <|
    or_congr (n16 8 1 (by decide)) <| or_congr (n16 8 2 (by decide)) <| or_congr (n16 8 3 (by decide)) <|
    or_congr (n16 8 4 (by decide)) <| or_congr (n16 8 5 (by decide)) <| or_congr (n16 8 6 (by decide)) <|
    or_congr (n16 8 0xE (by decide)) <| or_congr (n16 9 0 (by decide)) <| or_congr (mask_F000_eq _ 0xA) <|
    or_congr (mask_F000_eq _ 0xC) <| or_congr (mask_F000_eq _ 0xD) <| or_congr (n256 0xF 0x1E (by decide)) <|
    or_congr (n256 0xF 0x29 (by decide)) <| or_congr (n256 0xF 0x33 (by decide)) <|
    or_congr (n256 0xF 0x55 (by decide)) (n256 0xF 0x65 (by decide))

end Sys2Proof
end

