-- ==== Sys2Proof/Laws/State.lean ====
section
/-! SUPPORT. One lemma per field per update of State, true by rfl, for simp; and the two derived reads (a register,
a byte of Memory) through the updates that do not touch them. -/

namespace Sys2Proof.Machine

variable (s : State)

/-! ### setReg -/

@[simp] theorem State.setReg_V (x : RegIdx) (b : Byte) : (s.setReg x b).V = s.V.set x.toNat b x.isLt := rfl
@[simp] theorem State.setReg_I (x : RegIdx) (b : Byte) : (s.setReg x b).I = s.I := rfl
@[simp] theorem State.setReg_pc (x : RegIdx) (b : Byte) : (s.setReg x b).pc = s.pc := rfl
@[simp] theorem State.setReg_stack (x : RegIdx) (b : Byte) : (s.setReg x b).stack = s.stack := rfl
@[simp] theorem State.setReg_mem (x : RegIdx) (b : Byte) : (s.setReg x b).mem = s.mem := rfl
@[simp] theorem State.setReg_disp (x : RegIdx) (b : Byte) : (s.setReg x b).disp = s.disp := rfl
@[simp] theorem State.setReg_refreshOwed (x : RegIdx) (b : Byte) : (s.setReg x b).refreshOwed = s.refreshOwed := rfl
@[simp] theorem State.setReg_sched (x : RegIdx) (b : Byte) : (s.setReg x b).sched = s.sched := rfl
@[simp] theorem State.setReg_armed (x : RegIdx) (b : Byte) : (s.setReg x b).armed = s.armed := rfl
@[simp] theorem State.setReg_started (x : RegIdx) (b : Byte) : (s.setReg x b).started = s.started := rfl
@[simp] theorem State.setReg_faultCause (x : RegIdx) (b : Byte) : (s.setReg x b).faultCause = s.faultCause := rfl
@[simp] theorem State.setReg_faultPc (x : RegIdx) (b : Byte) : (s.setReg x b).faultPc = s.faultPc := rfl
@[simp] theorem State.setReg_faultOpcode (x : RegIdx) (b : Byte) : (s.setReg x b).faultOpcode = s.faultOpcode := rfl
@[simp] theorem State.setReg_stackDepth (x : RegIdx) (b : Byte) : (s.setReg x b).stackDepth = s.stackDepth := rfl
@[simp] theorem State.setReg_rndDraws (x : RegIdx) (b : Byte) : (s.setReg x b).rndDraws = s.rndDraws := rfl
@[simp] theorem State.setReg_pauseDraws (x : RegIdx) (b : Byte) : (s.setReg x b).pauseDraws = s.pauseDraws := rfl
@[simp] theorem State.setReg_hostActions (x : RegIdx) (b : Byte) : (s.setReg x b).hostActions = s.hostActions := rfl
@[simp] theorem State.setReg_emitted (x : RegIdx) (b : Byte) : (s.setReg x b).emitted = s.emitted := rfl
@[simp] theorem State.setReg_readByte (x : RegIdx) (b : Byte) (j : Nat) : (s.setReg x b).readByte j = s.readByte j := rfl
@[simp] theorem State.setReg_dataAddr (x : RegIdx) (b : Byte) (j : Nat) : (s.setReg x b).dataAddr j = s.dataAddr j := rfl

/-! ### setI -/

@[simp] theorem State.setI_V (w : Word) : (s.setI w).V = s.V := rfl
@[simp] theorem State.setI_I (w : Word) : (s.setI w).I = w := rfl
@[simp] theorem State.setI_pc (w : Word) : (s.setI w).pc = s.pc := rfl
@[simp] theorem State.setI_stack (w : Word) : (s.setI w).stack = s.stack := rfl
@[simp] theorem State.setI_mem (w : Word) : (s.setI w).mem = s.mem := rfl
@[simp] theorem State.setI_disp (w : Word) : (s.setI w).disp = s.disp := rfl
@[simp] theorem State.setI_refreshOwed (w : Word) : (s.setI w).refreshOwed = s.refreshOwed := rfl
@[simp] theorem State.setI_sched (w : Word) : (s.setI w).sched = s.sched := rfl
@[simp] theorem State.setI_armed (w : Word) : (s.setI w).armed = s.armed := rfl
@[simp] theorem State.setI_started (w : Word) : (s.setI w).started = s.started := rfl
@[simp] theorem State.setI_faultCause (w : Word) : (s.setI w).faultCause = s.faultCause := rfl
@[simp] theorem State.setI_faultPc (w : Word) : (s.setI w).faultPc = s.faultPc := rfl
@[simp] theorem State.setI_faultOpcode (w : Word) : (s.setI w).faultOpcode = s.faultOpcode := rfl
@[simp] theorem State.setI_stackDepth (w : Word) : (s.setI w).stackDepth = s.stackDepth := rfl
@[simp] theorem State.setI_rndDraws (w : Word) : (s.setI w).rndDraws = s.rndDraws := rfl
@[simp] theorem State.setI_pauseDraws (w : Word) : (s.setI w).pauseDraws = s.pauseDraws := rfl
@[simp] theorem State.setI_hostActions (w : Word) : (s.setI w).hostActions = s.hostActions := rfl
@[simp] theorem State.setI_emitted (w : Word) : (s.setI w).emitted = s.emitted := rfl
@[simp] theorem State.setI_reg (w : Word) (k : RegIdx) : (s.setI w).reg k = s.reg k := rfl
@[simp] theorem State.setI_readByte (w : Word) (j : Nat) : (s.setI w).readByte j = s.readByte j := rfl

/-! ### setPc -/

@[simp] theorem State.setPc_V (w : Word) : (s.setPc w).V = s.V := rfl
@[simp] theorem State.setPc_I (w : Word) : (s.setPc w).I = s.I := rfl
@[simp] theorem State.setPc_pc (w : Word) : (s.setPc w).pc = w := rfl
@[simp] theorem State.setPc_stack (w : Word) : (s.setPc w).stack = s.stack := rfl
@[simp] theorem State.setPc_mem (w : Word) : (s.setPc w).mem = s.mem := rfl
@[simp] theorem State.setPc_disp (w : Word) : (s.setPc w).disp = s.disp := rfl
@[simp] theorem State.setPc_refreshOwed (w : Word) : (s.setPc w).refreshOwed = s.refreshOwed := rfl
@[simp] theorem State.setPc_sched (w : Word) : (s.setPc w).sched = s.sched := rfl
@[simp] theorem State.setPc_armed (w : Word) : (s.setPc w).armed = s.armed := rfl
@[simp] theorem State.setPc_started (w : Word) : (s.setPc w).started = s.started := rfl
@[simp] theorem State.setPc_faultCause (w : Word) : (s.setPc w).faultCause = s.faultCause := rfl
@[simp] theorem State.setPc_faultPc (w : Word) : (s.setPc w).faultPc = s.faultPc := rfl
@[simp] theorem State.setPc_faultOpcode (w : Word) : (s.setPc w).faultOpcode = s.faultOpcode := rfl
@[simp] theorem State.setPc_stackDepth (w : Word) : (s.setPc w).stackDepth = s.stackDepth := rfl
@[simp] theorem State.setPc_rndDraws (w : Word) : (s.setPc w).rndDraws = s.rndDraws := rfl
@[simp] theorem State.setPc_pauseDraws (w : Word) : (s.setPc w).pauseDraws = s.pauseDraws := rfl
@[simp] theorem State.setPc_hostActions (w : Word) : (s.setPc w).hostActions = s.hostActions := rfl
@[simp] theorem State.setPc_emitted (w : Word) : (s.setPc w).emitted = s.emitted := rfl
@[simp] theorem State.setPc_reg (w : Word) (k : RegIdx) : (s.setPc w).reg k = s.reg k := rfl
@[simp] theorem State.setPc_readByte (w : Word) (j : Nat) : (s.setPc w).readByte j = s.readByte j := rfl
@[simp] theorem State.setPc_dataAddr (w : Word) (j : Nat) : (s.setPc w).dataAddr j = s.dataAddr j := rfl

/-! ### advancePc -/

@[simp] theorem State.advancePc_V : (s.advancePc).V = s.V := rfl
@[simp] theorem State.advancePc_I : (s.advancePc).I = s.I := rfl
@[simp] theorem State.advancePc_pc : (s.advancePc).pc = s.pc + 2#16 := rfl
@[simp] theorem State.advancePc_stack : (s.advancePc).stack = s.stack := rfl
@[simp] theorem State.advancePc_mem : (s.advancePc).mem = s.mem := rfl
@[simp] theorem State.advancePc_disp : (s.advancePc).disp = s.disp := rfl
@[simp] theorem State.advancePc_refreshOwed : (s.advancePc).refreshOwed = s.refreshOwed := rfl
@[simp] theorem State.advancePc_sched : (s.advancePc).sched = s.sched := rfl
@[simp] theorem State.advancePc_armed : (s.advancePc).armed = s.armed := rfl
@[simp] theorem State.advancePc_started : (s.advancePc).started = s.started := rfl
@[simp] theorem State.advancePc_faultCause : (s.advancePc).faultCause = s.faultCause := rfl
@[simp] theorem State.advancePc_faultPc : (s.advancePc).faultPc = s.faultPc := rfl
@[simp] theorem State.advancePc_faultOpcode : (s.advancePc).faultOpcode = s.faultOpcode := rfl
@[simp] theorem State.advancePc_stackDepth : (s.advancePc).stackDepth = s.stackDepth := rfl
@[simp] theorem State.advancePc_rndDraws : (s.advancePc).rndDraws = s.rndDraws := rfl
@[simp] theorem State.advancePc_pauseDraws : (s.advancePc).pauseDraws = s.pauseDraws := rfl
@[simp] theorem State.advancePc_hostActions : (s.advancePc).hostActions = s.hostActions := rfl
@[simp] theorem State.advancePc_emitted : (s.advancePc).emitted = s.emitted := rfl
@[simp] theorem State.advancePc_reg (k : RegIdx) : (s.advancePc).reg k = s.reg k := rfl
@[simp] theorem State.advancePc_readByte (j : Nat) : (s.advancePc).readByte j = s.readByte j := rfl
@[simp] theorem State.advancePc_dataAddr (j : Nat) : (s.advancePc).dataAddr j = s.dataAddr j := rfl

/-! ### push -/

@[simp] theorem State.push_V (w : Word) : (s.push w).V = s.V := rfl
@[simp] theorem State.push_I (w : Word) : (s.push w).I = s.I := rfl
@[simp] theorem State.push_pc (w : Word) : (s.push w).pc = s.pc := rfl
@[simp] theorem State.push_stack (w : Word) : (s.push w).stack = w :: s.stack := rfl
@[simp] theorem State.push_mem (w : Word) : (s.push w).mem = s.mem := rfl
@[simp] theorem State.push_disp (w : Word) : (s.push w).disp = s.disp := rfl
@[simp] theorem State.push_refreshOwed (w : Word) : (s.push w).refreshOwed = s.refreshOwed := rfl
@[simp] theorem State.push_sched (w : Word) : (s.push w).sched = s.sched := rfl
@[simp] theorem State.push_armed (w : Word) : (s.push w).armed = s.armed := rfl
@[simp] theorem State.push_started (w : Word) : (s.push w).started = s.started := rfl
@[simp] theorem State.push_faultCause (w : Word) : (s.push w).faultCause = s.faultCause := rfl
@[simp] theorem State.push_faultPc (w : Word) : (s.push w).faultPc = s.faultPc := rfl
@[simp] theorem State.push_faultOpcode (w : Word) : (s.push w).faultOpcode = s.faultOpcode := rfl
@[simp] theorem State.push_stackDepth (w : Word) : (s.push w).stackDepth = s.stackDepth := rfl
@[simp] theorem State.push_rndDraws (w : Word) : (s.push w).rndDraws = s.rndDraws := rfl
@[simp] theorem State.push_pauseDraws (w : Word) : (s.push w).pauseDraws = s.pauseDraws := rfl
@[simp] theorem State.push_hostActions (w : Word) : (s.push w).hostActions = s.hostActions := rfl
@[simp] theorem State.push_emitted (w : Word) : (s.push w).emitted = s.emitted := rfl
@[simp] theorem State.push_reg (w : Word) (k : RegIdx) : (s.push w).reg k = s.reg k := rfl
@[simp] theorem State.push_readByte (w : Word) (j : Nat) : (s.push w).readByte j = s.readByte j := rfl
@[simp] theorem State.push_dataAddr (w : Word) (j : Nat) : (s.push w).dataAddr j = s.dataAddr j := rfl

/-! ### dropTop -/

@[simp] theorem State.dropTop_V : (s.dropTop).V = s.V := rfl
@[simp] theorem State.dropTop_I : (s.dropTop).I = s.I := rfl
@[simp] theorem State.dropTop_pc : (s.dropTop).pc = s.pc := rfl
@[simp] theorem State.dropTop_stack : (s.dropTop).stack = s.stack.tail := rfl
@[simp] theorem State.dropTop_mem : (s.dropTop).mem = s.mem := rfl
@[simp] theorem State.dropTop_disp : (s.dropTop).disp = s.disp := rfl
@[simp] theorem State.dropTop_refreshOwed : (s.dropTop).refreshOwed = s.refreshOwed := rfl
@[simp] theorem State.dropTop_sched : (s.dropTop).sched = s.sched := rfl
@[simp] theorem State.dropTop_armed : (s.dropTop).armed = s.armed := rfl
@[simp] theorem State.dropTop_started : (s.dropTop).started = s.started := rfl
@[simp] theorem State.dropTop_faultCause : (s.dropTop).faultCause = s.faultCause := rfl
@[simp] theorem State.dropTop_faultPc : (s.dropTop).faultPc = s.faultPc := rfl
@[simp] theorem State.dropTop_faultOpcode : (s.dropTop).faultOpcode = s.faultOpcode := rfl
@[simp] theorem State.dropTop_stackDepth : (s.dropTop).stackDepth = s.stackDepth := rfl
@[simp] theorem State.dropTop_rndDraws : (s.dropTop).rndDraws = s.rndDraws := rfl
@[simp] theorem State.dropTop_pauseDraws : (s.dropTop).pauseDraws = s.pauseDraws := rfl
@[simp] theorem State.dropTop_hostActions : (s.dropTop).hostActions = s.hostActions := rfl
@[simp] theorem State.dropTop_emitted : (s.dropTop).emitted = s.emitted := rfl
@[simp] theorem State.dropTop_reg (k : RegIdx) : (s.dropTop).reg k = s.reg k := rfl
@[simp] theorem State.dropTop_readByte (j : Nat) : (s.dropTop).readByte j = s.readByte j := rfl
@[simp] theorem State.dropTop_dataAddr (j : Nat) : (s.dropTop).dataAddr j = s.dataAddr j := rfl

/-! ### writeByte -/

@[simp] theorem State.writeByte_V (a : Nat) (b : Byte) : (s.writeByte a b).V = s.V := rfl
@[simp] theorem State.writeByte_I (a : Nat) (b : Byte) : (s.writeByte a b).I = s.I := rfl
@[simp] theorem State.writeByte_pc (a : Nat) (b : Byte) : (s.writeByte a b).pc = s.pc := rfl
@[simp] theorem State.writeByte_stack (a : Nat) (b : Byte) : (s.writeByte a b).stack = s.stack := rfl
@[simp] theorem State.writeByte_mem (a : Nat) (b : Byte) : (s.writeByte a b).mem = s.mem.write a b := rfl
@[simp] theorem State.writeByte_disp (a : Nat) (b : Byte) : (s.writeByte a b).disp = s.disp := rfl
@[simp] theorem State.writeByte_refreshOwed (a : Nat) (b : Byte) : (s.writeByte a b).refreshOwed = s.refreshOwed := rfl
@[simp] theorem State.writeByte_sched (a : Nat) (b : Byte) : (s.writeByte a b).sched = s.sched := rfl
@[simp] theorem State.writeByte_armed (a : Nat) (b : Byte) : (s.writeByte a b).armed = s.armed := rfl
@[simp] theorem State.writeByte_started (a : Nat) (b : Byte) : (s.writeByte a b).started = s.started := rfl
@[simp] theorem State.writeByte_faultCause (a : Nat) (b : Byte) : (s.writeByte a b).faultCause = s.faultCause := rfl
@[simp] theorem State.writeByte_faultPc (a : Nat) (b : Byte) : (s.writeByte a b).faultPc = s.faultPc := rfl
@[simp] theorem State.writeByte_faultOpcode (a : Nat) (b : Byte) : (s.writeByte a b).faultOpcode = s.faultOpcode := rfl
@[simp] theorem State.writeByte_stackDepth (a : Nat) (b : Byte) : (s.writeByte a b).stackDepth = s.stackDepth := rfl
@[simp] theorem State.writeByte_rndDraws (a : Nat) (b : Byte) : (s.writeByte a b).rndDraws = s.rndDraws := rfl
@[simp] theorem State.writeByte_pauseDraws (a : Nat) (b : Byte) : (s.writeByte a b).pauseDraws = s.pauseDraws := rfl
@[simp] theorem State.writeByte_hostActions (a : Nat) (b : Byte) : (s.writeByte a b).hostActions = s.hostActions := rfl
@[simp] theorem State.writeByte_emitted (a : Nat) (b : Byte) : (s.writeByte a b).emitted = s.emitted := rfl
@[simp] theorem State.writeByte_reg (a : Nat) (b : Byte) (k : RegIdx) : (s.writeByte a b).reg k = s.reg k := rfl
@[simp] theorem State.writeByte_dataAddr (a : Nat) (b : Byte) (j : Nat) : (s.writeByte a b).dataAddr j = s.dataAddr j := rfl

/-! ### setPixel -/

@[simp] theorem State.setPixel_V (r : Fin 32) (c : Fin 64) (b : Bool) : (s.setPixel r c b).V = s.V := rfl
@[simp] theorem State.setPixel_I (r : Fin 32) (c : Fin 64) (b : Bool) : (s.setPixel r c b).I = s.I := rfl
@[simp] theorem State.setPixel_pc (r : Fin 32) (c : Fin 64) (b : Bool) : (s.setPixel r c b).pc = s.pc := rfl
@[simp] theorem State.setPixel_stack (r : Fin 32) (c : Fin 64) (b : Bool) : (s.setPixel r c b).stack = s.stack := rfl
@[simp] theorem State.setPixel_mem (r : Fin 32) (c : Fin 64) (b : Bool) : (s.setPixel r c b).mem = s.mem := rfl
@[simp] theorem State.setPixel_disp (r : Fin 32) (c : Fin 64) (b : Bool) : (s.setPixel r c b).disp = s.disp.setPixel r c b := rfl
@[simp] theorem State.setPixel_refreshOwed (r : Fin 32) (c : Fin 64) (b : Bool) : (s.setPixel r c b).refreshOwed = s.refreshOwed := rfl
@[simp] theorem State.setPixel_sched (r : Fin 32) (c : Fin 64) (b : Bool) : (s.setPixel r c b).sched = s.sched := rfl
@[simp] theorem State.setPixel_armed (r : Fin 32) (c : Fin 64) (b : Bool) : (s.setPixel r c b).armed = s.armed := rfl
@[simp] theorem State.setPixel_started (r : Fin 32) (c : Fin 64) (b : Bool) : (s.setPixel r c b).started = s.started := rfl
@[simp] theorem State.setPixel_faultCause (r : Fin 32) (c : Fin 64) (b : Bool) : (s.setPixel r c b).faultCause = s.faultCause := rfl
@[simp] theorem State.setPixel_faultPc (r : Fin 32) (c : Fin 64) (b : Bool) : (s.setPixel r c b).faultPc = s.faultPc := rfl
@[simp] theorem State.setPixel_faultOpcode (r : Fin 32) (c : Fin 64) (b : Bool) : (s.setPixel r c b).faultOpcode = s.faultOpcode := rfl
@[simp] theorem State.setPixel_stackDepth (r : Fin 32) (c : Fin 64) (b : Bool) : (s.setPixel r c b).stackDepth = s.stackDepth := rfl
@[simp] theorem State.setPixel_rndDraws (r : Fin 32) (c : Fin 64) (b : Bool) : (s.setPixel r c b).rndDraws = s.rndDraws := rfl
@[simp] theorem State.setPixel_pauseDraws (r : Fin 32) (c : Fin 64) (b : Bool) : (s.setPixel r c b).pauseDraws = s.pauseDraws := rfl
@[simp] theorem State.setPixel_hostActions (r : Fin 32) (c : Fin 64) (b : Bool) : (s.setPixel r c b).hostActions = s.hostActions := rfl
@[simp] theorem State.setPixel_emitted (r : Fin 32) (c : Fin 64) (b : Bool) : (s.setPixel r c b).emitted = s.emitted := rfl
@[simp] theorem State.setPixel_reg (r : Fin 32) (c : Fin 64) (b : Bool) (k : RegIdx) : (s.setPixel r c b).reg k = s.reg k := rfl
@[simp] theorem State.setPixel_readByte (r : Fin 32) (c : Fin 64) (b : Bool) (j : Nat) : (s.setPixel r c b).readByte j = s.readByte j := rfl
@[simp] theorem State.setPixel_dataAddr (r : Fin 32) (c : Fin 64) (b : Bool) (j : Nat) : (s.setPixel r c b).dataAddr j = s.dataAddr j := rfl

/-! ### clearDisplay -/

@[simp] theorem State.clearDisplay_V : (s.clearDisplay).V = s.V := rfl
@[simp] theorem State.clearDisplay_I : (s.clearDisplay).I = s.I := rfl
@[simp] theorem State.clearDisplay_pc : (s.clearDisplay).pc = s.pc := rfl
@[simp] theorem State.clearDisplay_stack : (s.clearDisplay).stack = s.stack := rfl
@[simp] theorem State.clearDisplay_mem : (s.clearDisplay).mem = s.mem := rfl
@[simp] theorem State.clearDisplay_disp : (s.clearDisplay).disp = Display.blank := rfl
@[simp] theorem State.clearDisplay_refreshOwed : (s.clearDisplay).refreshOwed = s.refreshOwed := rfl
@[simp] theorem State.clearDisplay_sched : (s.clearDisplay).sched = s.sched := rfl
@[simp] theorem State.clearDisplay_armed : (s.clearDisplay).armed = s.armed := rfl
@[simp] theorem State.clearDisplay_started : (s.clearDisplay).started = s.started := rfl
@[simp] theorem State.clearDisplay_faultCause : (s.clearDisplay).faultCause = s.faultCause := rfl
@[simp] theorem State.clearDisplay_faultPc : (s.clearDisplay).faultPc = s.faultPc := rfl
@[simp] theorem State.clearDisplay_faultOpcode : (s.clearDisplay).faultOpcode = s.faultOpcode := rfl
@[simp] theorem State.clearDisplay_stackDepth : (s.clearDisplay).stackDepth = s.stackDepth := rfl
@[simp] theorem State.clearDisplay_rndDraws : (s.clearDisplay).rndDraws = s.rndDraws := rfl
@[simp] theorem State.clearDisplay_pauseDraws : (s.clearDisplay).pauseDraws = s.pauseDraws := rfl
@[simp] theorem State.clearDisplay_hostActions : (s.clearDisplay).hostActions = s.hostActions := rfl
@[simp] theorem State.clearDisplay_emitted : (s.clearDisplay).emitted = s.emitted := rfl
@[simp] theorem State.clearDisplay_reg (k : RegIdx) : (s.clearDisplay).reg k = s.reg k := rfl
@[simp] theorem State.clearDisplay_readByte (j : Nat) : (s.clearDisplay).readByte j = s.readByte j := rfl
@[simp] theorem State.clearDisplay_dataAddr (j : Nat) : (s.clearDisplay).dataAddr j = s.dataAddr j := rfl

/-! ### markRefresh -/

@[simp] theorem State.markRefresh_V : (s.markRefresh).V = s.V := rfl
@[simp] theorem State.markRefresh_I : (s.markRefresh).I = s.I := rfl
@[simp] theorem State.markRefresh_pc : (s.markRefresh).pc = s.pc := rfl
@[simp] theorem State.markRefresh_stack : (s.markRefresh).stack = s.stack := rfl
@[simp] theorem State.markRefresh_mem : (s.markRefresh).mem = s.mem := rfl
@[simp] theorem State.markRefresh_disp : (s.markRefresh).disp = s.disp := rfl
@[simp] theorem State.markRefresh_refreshOwed : (s.markRefresh).refreshOwed = true := rfl
@[simp] theorem State.markRefresh_sched : (s.markRefresh).sched = s.sched := rfl
@[simp] theorem State.markRefresh_armed : (s.markRefresh).armed = s.armed := rfl
@[simp] theorem State.markRefresh_started : (s.markRefresh).started = s.started := rfl
@[simp] theorem State.markRefresh_faultCause : (s.markRefresh).faultCause = s.faultCause := rfl
@[simp] theorem State.markRefresh_faultPc : (s.markRefresh).faultPc = s.faultPc := rfl
@[simp] theorem State.markRefresh_faultOpcode : (s.markRefresh).faultOpcode = s.faultOpcode := rfl
@[simp] theorem State.markRefresh_stackDepth : (s.markRefresh).stackDepth = s.stackDepth := rfl
@[simp] theorem State.markRefresh_rndDraws : (s.markRefresh).rndDraws = s.rndDraws := rfl
@[simp] theorem State.markRefresh_pauseDraws : (s.markRefresh).pauseDraws = s.pauseDraws := rfl
@[simp] theorem State.markRefresh_hostActions : (s.markRefresh).hostActions = s.hostActions := rfl
@[simp] theorem State.markRefresh_emitted : (s.markRefresh).emitted = s.emitted := rfl
@[simp] theorem State.markRefresh_reg (k : RegIdx) : (s.markRefresh).reg k = s.reg k := rfl
@[simp] theorem State.markRefresh_readByte (j : Nat) : (s.markRefresh).readByte j = s.readByte j := rfl
@[simp] theorem State.markRefresh_dataAddr (j : Nat) : (s.markRefresh).dataAddr j = s.dataAddr j := rfl

/-! ### countDraw -/

@[simp] theorem State.countDraw_V : (s.countDraw).V = s.V := rfl
@[simp] theorem State.countDraw_I : (s.countDraw).I = s.I := rfl
@[simp] theorem State.countDraw_pc : (s.countDraw).pc = s.pc := rfl
@[simp] theorem State.countDraw_stack : (s.countDraw).stack = s.stack := rfl
@[simp] theorem State.countDraw_mem : (s.countDraw).mem = s.mem := rfl
@[simp] theorem State.countDraw_disp : (s.countDraw).disp = s.disp := rfl
@[simp] theorem State.countDraw_refreshOwed : (s.countDraw).refreshOwed = s.refreshOwed := rfl
@[simp] theorem State.countDraw_sched : (s.countDraw).sched = s.sched := rfl
@[simp] theorem State.countDraw_armed : (s.countDraw).armed = s.armed := rfl
@[simp] theorem State.countDraw_started : (s.countDraw).started = s.started := rfl
@[simp] theorem State.countDraw_faultCause : (s.countDraw).faultCause = s.faultCause := rfl
@[simp] theorem State.countDraw_faultPc : (s.countDraw).faultPc = s.faultPc := rfl
@[simp] theorem State.countDraw_faultOpcode : (s.countDraw).faultOpcode = s.faultOpcode := rfl
@[simp] theorem State.countDraw_stackDepth : (s.countDraw).stackDepth = s.stackDepth := rfl
@[simp] theorem State.countDraw_rndDraws : (s.countDraw).rndDraws = s.rndDraws + 1 := rfl
@[simp] theorem State.countDraw_pauseDraws : (s.countDraw).pauseDraws = s.pauseDraws := rfl
@[simp] theorem State.countDraw_hostActions : (s.countDraw).hostActions = s.hostActions := rfl
@[simp] theorem State.countDraw_emitted : (s.countDraw).emitted = s.emitted := rfl
@[simp] theorem State.countDraw_reg (k : RegIdx) : (s.countDraw).reg k = s.reg k := rfl
@[simp] theorem State.countDraw_readByte (j : Nat) : (s.countDraw).readByte j = s.readByte j := rfl
@[simp] theorem State.countDraw_dataAddr (j : Nat) : (s.countDraw).dataAddr j = s.dataAddr j := rfl

/-! ### haltEntry -/

@[simp] theorem State.haltEntry_V (cause : FaultCause) (a op : Word) : (s.haltEntry cause a op).V = s.V := rfl
@[simp] theorem State.haltEntry_I (cause : FaultCause) (a op : Word) : (s.haltEntry cause a op).I = s.I := rfl
@[simp] theorem State.haltEntry_pc (cause : FaultCause) (a op : Word) : (s.haltEntry cause a op).pc = s.pc := rfl
@[simp] theorem State.haltEntry_stack (cause : FaultCause) (a op : Word) : (s.haltEntry cause a op).stack = s.stack := rfl
@[simp] theorem State.haltEntry_mem (cause : FaultCause) (a op : Word) : (s.haltEntry cause a op).mem = s.mem := rfl
@[simp] theorem State.haltEntry_disp (cause : FaultCause) (a op : Word) : (s.haltEntry cause a op).disp = s.disp := rfl
@[simp] theorem State.haltEntry_refreshOwed (cause : FaultCause) (a op : Word) : (s.haltEntry cause a op).refreshOwed = s.refreshOwed := rfl
@[simp] theorem State.haltEntry_sched (cause : FaultCause) (a op : Word) : (s.haltEntry cause a op).sched = .halted := rfl
@[simp] theorem State.haltEntry_armed (cause : FaultCause) (a op : Word) : (s.haltEntry cause a op).armed = false := rfl
@[simp] theorem State.haltEntry_started (cause : FaultCause) (a op : Word) : (s.haltEntry cause a op).started = s.started := rfl
@[simp] theorem State.haltEntry_faultCause (cause : FaultCause) (a op : Word) : (s.haltEntry cause a op).faultCause = cause := rfl
@[simp] theorem State.haltEntry_faultPc (cause : FaultCause) (a op : Word) : (s.haltEntry cause a op).faultPc = a := rfl
@[simp] theorem State.haltEntry_faultOpcode (cause : FaultCause) (a op : Word) : (s.haltEntry cause a op).faultOpcode = op := rfl
@[simp] theorem State.haltEntry_stackDepth (cause : FaultCause) (a op : Word) : (s.haltEntry cause a op).stackDepth = s.stackDepth := rfl
@[simp] theorem State.haltEntry_rndDraws (cause : FaultCause) (a op : Word) : (s.haltEntry cause a op).rndDraws = s.rndDraws := rfl
@[simp] theorem State.haltEntry_pauseDraws (cause : FaultCause) (a op : Word) : (s.haltEntry cause a op).pauseDraws = s.pauseDraws := rfl
@[simp] theorem State.haltEntry_hostActions (cause : FaultCause) (a op : Word) : (s.haltEntry cause a op).hostActions = s.hostActions := rfl
@[simp] theorem State.haltEntry_emitted (cause : FaultCause) (a op : Word) : (s.haltEntry cause a op).emitted = s.emitted ++ [.halted cause a op] := rfl
@[simp] theorem State.haltEntry_reg (cause : FaultCause) (a op : Word) (k : RegIdx) : (s.haltEntry cause a op).reg k = s.reg k := rfl
@[simp] theorem State.haltEntry_readByte (cause : FaultCause) (a op : Word) (j : Nat) : (s.haltEntry cause a op).readByte j = s.readByte j := rfl
@[simp] theorem State.haltEntry_dataAddr (cause : FaultCause) (a op : Word) (j : Nat) : (s.haltEntry cause a op).dataAddr j = s.dataAddr j := rfl

/-! ### clearEmitted -/

@[simp] theorem State.clearEmitted_V : (s.clearEmitted).V = s.V := rfl
@[simp] theorem State.clearEmitted_I : (s.clearEmitted).I = s.I := rfl
@[simp] theorem State.clearEmitted_pc : (s.clearEmitted).pc = s.pc := rfl
@[simp] theorem State.clearEmitted_stack : (s.clearEmitted).stack = s.stack := rfl
@[simp] theorem State.clearEmitted_mem : (s.clearEmitted).mem = s.mem := rfl
@[simp] theorem State.clearEmitted_disp : (s.clearEmitted).disp = s.disp := rfl
@[simp] theorem State.clearEmitted_refreshOwed : (s.clearEmitted).refreshOwed = s.refreshOwed := rfl
@[simp] theorem State.clearEmitted_sched : (s.clearEmitted).sched = s.sched := rfl
@[simp] theorem State.clearEmitted_armed : (s.clearEmitted).armed = s.armed := rfl
@[simp] theorem State.clearEmitted_started : (s.clearEmitted).started = s.started := rfl
@[simp] theorem State.clearEmitted_faultCause : (s.clearEmitted).faultCause = s.faultCause := rfl
@[simp] theorem State.clearEmitted_faultPc : (s.clearEmitted).faultPc = s.faultPc := rfl
@[simp] theorem State.clearEmitted_faultOpcode : (s.clearEmitted).faultOpcode = s.faultOpcode := rfl
@[simp] theorem State.clearEmitted_stackDepth : (s.clearEmitted).stackDepth = s.stackDepth := rfl
@[simp] theorem State.clearEmitted_rndDraws : (s.clearEmitted).rndDraws = s.rndDraws := rfl
@[simp] theorem State.clearEmitted_pauseDraws : (s.clearEmitted).pauseDraws = s.pauseDraws := rfl
@[simp] theorem State.clearEmitted_hostActions : (s.clearEmitted).hostActions = s.hostActions := rfl
@[simp] theorem State.clearEmitted_emitted : (s.clearEmitted).emitted = [] := rfl
@[simp] theorem State.clearEmitted_reg (k : RegIdx) : (s.clearEmitted).reg k = s.reg k := rfl
@[simp] theorem State.clearEmitted_readByte (j : Nat) : (s.clearEmitted).readByte j = s.readByte j := rfl
@[simp] theorem State.clearEmitted_dataAddr (j : Nat) : (s.clearEmitted).dataAddr j = s.dataAddr j := rfl

/-! ### dropAction -/

@[simp] theorem State.dropAction_V : (s.dropAction).V = s.V := rfl
@[simp] theorem State.dropAction_I : (s.dropAction).I = s.I := rfl
@[simp] theorem State.dropAction_pc : (s.dropAction).pc = s.pc := rfl
@[simp] theorem State.dropAction_stack : (s.dropAction).stack = s.stack := rfl
@[simp] theorem State.dropAction_mem : (s.dropAction).mem = s.mem := rfl
@[simp] theorem State.dropAction_disp : (s.dropAction).disp = s.disp := rfl
@[simp] theorem State.dropAction_refreshOwed : (s.dropAction).refreshOwed = s.refreshOwed := rfl
@[simp] theorem State.dropAction_sched : (s.dropAction).sched = s.sched := rfl
@[simp] theorem State.dropAction_armed : (s.dropAction).armed = s.armed := rfl
@[simp] theorem State.dropAction_started : (s.dropAction).started = s.started := rfl
@[simp] theorem State.dropAction_faultCause : (s.dropAction).faultCause = s.faultCause := rfl
@[simp] theorem State.dropAction_faultPc : (s.dropAction).faultPc = s.faultPc := rfl
@[simp] theorem State.dropAction_faultOpcode : (s.dropAction).faultOpcode = s.faultOpcode := rfl
@[simp] theorem State.dropAction_stackDepth : (s.dropAction).stackDepth = s.stackDepth := rfl
@[simp] theorem State.dropAction_rndDraws : (s.dropAction).rndDraws = s.rndDraws := rfl
@[simp] theorem State.dropAction_pauseDraws : (s.dropAction).pauseDraws = s.pauseDraws := rfl
@[simp] theorem State.dropAction_hostActions : (s.dropAction).hostActions = s.hostActions.tail := rfl
@[simp] theorem State.dropAction_emitted : (s.dropAction).emitted = s.emitted := rfl
@[simp] theorem State.dropAction_reg (k : RegIdx) : (s.dropAction).reg k = s.reg k := rfl
@[simp] theorem State.dropAction_readByte (j : Nat) : (s.dropAction).readByte j = s.readByte j := rfl
@[simp] theorem State.dropAction_dataAddr (j : Nat) : (s.dropAction).dataAddr j = s.dataAddr j := rfl

end Sys2Proof.Machine
end

