-- ==== Sys2Proof/Laws/Memory.lean ====
section
/-! SUPPORT. The laws of the named operations: a read after a write, registers, Memory, the display; and that every
memory operation keeps the canonical form, in which equal memories are equal lists. -/

namespace Sys2Proof.Machine

/-! ### Registers -/

theorem RegIdx.lt (x : RegIdx) : x.toNat < 16 := x.isLt

/-- A register read after a register write. -/
theorem State.reg_setReg (s : State) (x k : RegIdx) (b : Byte) :
    (s.setReg x b).reg k = if k = x then b else s.reg k := by
  unfold State.reg State.setReg
  rw [Vector.getElem_set]
  have h : x.toNat = k.toNat ↔ k = x := ⟨fun h => BitVec.eq_of_toNat_eq h.symm, fun h => by rw [h]⟩
  by_cases hk : k = x
  · rw [if_pos hk, if_pos (h.2 hk)]
  · rw [if_neg hk, if_neg (fun e => hk (h.1 e))]

@[simp] theorem State.reg_setReg_same (s : State) (x : RegIdx) (b : Byte) : (s.setReg x b).reg x = b := by
  rw [State.reg_setReg, if_pos rfl]

theorem State.reg_setReg_other (s : State) {x k : RegIdx} (b : Byte) (h : k ≠ x) :
    (s.setReg x b).reg k = s.reg k := by
  rw [State.reg_setReg, if_neg h]

/-- Equal registers, register by register, are equal register files. -/
theorem State.V_ext {s t : State} (h : ∀ k, t.reg k = s.reg k) : t.V = s.V := by
  ext j hj
  have := h (BitVec.ofNat 4 j)
  simp only [State.reg, BitVec.toNat_ofNat] at this
  have e : j % 2 ^ 4 = j := Nat.mod_eq_of_lt hj
  simp only [e] at this
  rw [this]

theorem regNumber_toNat {k : Nat} (h : k < 16) : (regNumber k).toNat = k := by
  simp only [regNumber, BitVec.toNat_ofNat]
  exact Nat.mod_eq_of_lt h

theorem regNumber_of_toNat (x : RegIdx) : regNumber x.toNat = x := by
  simp [regNumber]

/-! ### Memory: reads and writes -/

@[simp] theorem Memory.read_nil (a : Nat) : Memory.read [] a = 0#8 := rfl

theorem Memory.read_unlist (m : Memory) (a k : Nat) :
    (m.unlist a).read k = if k = a then 0#8 else m.read k := by
  induction m with
  | nil => simp [Memory.unlist]
  | cons c m ih =>
    simp only [Memory.unlist, List.filter_cons] at ih ⊢
    by_cases hc : c.1 = a
    · simp only [hc, ne_eq, not_true_eq_false, decide_false, Bool.false_eq_true, ↓reduceIte, ih, Memory.read]
      by_cases hk : k = a
      · simp [hk]
      · rw [if_neg hk, if_neg hk, if_neg (fun e => hk e.symm)]
    · simp only [ne_eq, hc, not_false_eq_true, decide_true, ↓reduceIte, Memory.read, ih]
      by_cases hk : k = a
      · simp [hk, hc]
      · simp [hk]

theorem Memory.read_insertCell (m : Memory) (a k : Nat) (b : Byte) (h : ∀ c ∈ m, c.1 ≠ a) :
    (Memory.insertCell a b m).read k = if k = a then b else m.read k := by
  induction m with
  | nil => simp [Memory.insertCell, Memory.read, eq_comm]
  | cons c m ih =>
    have hc : c.1 ≠ a := h c (by simp)
    have hm := ih (fun d hd => h d (by simp [hd]))
    unfold Memory.insertCell
    split
    · simp [Memory.read, eq_comm]
    · simp only [Memory.read, hm]
      by_cases hk : k = a
      · simp [hk, hc]
      · simp [hk]

theorem Memory.unlist_ne (m : Memory) (a : Nat) : ∀ c ∈ m.unlist a, c.1 ≠ a := by
  intro c hc
  simp only [Memory.unlist, List.mem_filter, decide_eq_true_eq] at hc
  exact hc.2

/-- A byte read after a byte write: all there is to know of a write. -/
theorem Memory.read_write (m : Memory) (a k : Nat) (b : Byte) :
    (m.write a b).read k = if k = a ∧ a < 4096 then b else m.read k := by
  unfold Memory.write
  by_cases ha : a < Config.memSize
  · have ha' : a < 4096 := ha
    rw [if_pos ha]
    by_cases hb : b = Memory.unlisted
    · rw [if_pos hb, Memory.read_unlist, hb]
      by_cases hk : k = a <;> simp [hk, ha', Memory.unlisted]
    · rw [if_neg hb, Memory.read_insertCell _ _ _ _ (Memory.unlist_ne m a), Memory.read_unlist]
      by_cases hk : k = a <;> simp [hk, ha']
  · have ha' : ¬ a < 4096 := ha
    rw [if_neg ha]
    simp [ha']

theorem State.readByte_writeByte (s : State) (a k : Nat) (b : Byte) :
    (s.writeByte a b).readByte k = if k = a ∧ a < 4096 then b else s.readByte k :=
  Memory.read_write s.mem a k b

/-! ### Memory: the canonical form -/

theorem Memory.wf_cons {c : Host.Cell} {m : Memory} :
    Memory.wf (c :: m) = true ↔ c.1 < 4096 ∧ c.2 ≠ 0#8 ∧ (∀ d ∈ m, c.1 < d.1) ∧ Memory.wf m = true := by
  simp only [Memory.wf, Bool.and_eq_true, decide_eq_true_eq, List.all_eq_true, and_assoc]
  exact Iff.rfl

theorem Memory.wf_unlist {m : Memory} (a : Nat) (h : m.wf = true) : (m.unlist a).wf = true := by
  induction m with
  | nil => rfl
  | cons c m ih =>
    obtain ⟨h1, h2, h3, h4⟩ := Memory.wf_cons.1 h
    simp only [Memory.unlist, List.filter_cons]
    split
    · refine Memory.wf_cons.2 ⟨h1, h2, fun d hd => h3 d (List.mem_filter.1 hd).1, ih h4⟩
    · exact ih h4

theorem Memory.mem_insertCell {m : Memory} {a : Nat} {b : Byte} {d : Host.Cell}
    (h : d ∈ Memory.insertCell a b m) : d = (a, b) ∨ d ∈ m := by
  induction m with
  | nil => simpa [Memory.insertCell] using h
  | cons c m ih =>
    unfold Memory.insertCell at h
    split at h
    · simpa using h
    · rcases List.mem_cons.1 h with rfl | h
      · simp
      · rcases ih h with rfl | h <;> simp [*]

theorem Memory.wf_insertCell {m : Memory} {a : Nat} {b : Byte} (ha : a < 4096) (hb : b ≠ 0#8)
    (hm : ∀ c ∈ m, c.1 ≠ a) (h : m.wf = true) : (Memory.insertCell a b m).wf = true := by
  induction m with
  | nil => simp [Memory.insertCell, Memory.wf, Memory.unlisted, Config.memSize, ha, hb]
  | cons c m ih =>
    obtain ⟨h1, h2, h3, h4⟩ := Memory.wf_cons.1 h
    unfold Memory.insertCell
    split
    · rename_i hlt
      refine Memory.wf_cons.2 ⟨ha, hb, ?_, h⟩
      intro d hd
      rcases List.mem_cons.1 hd with rfl | hd
      · exact hlt
      · exact Nat.lt_trans hlt (h3 d hd)
    · rename_i hge
      have hc : c.1 ≠ a := hm c (by simp)
      refine Memory.wf_cons.2 ⟨h1, h2, ?_, ih (fun d hd => hm d (by simp [hd])) h4⟩
      intro d hd
      rcases Memory.mem_insertCell hd with rfl | hd
      · show c.1 < a
        omega
      · exact h3 d hd

/-- Every write keeps the canonical form. -/
theorem Memory.wf_write {m : Memory} (a : Nat) (b : Byte) (h : m.wf = true) : (m.write a b).wf = true := by
  unfold Memory.write
  split
  · split
    · exact Memory.wf_unlist a h
    · rename_i ha hb
      exact Memory.wf_insertCell ha hb (Memory.unlist_ne m a) (Memory.wf_unlist a h)
  · exact h

theorem Memory.read_of_lt {m : Memory} {a : Nat} (h : ∀ d ∈ m, a < d.1) : m.read a = 0#8 := by
  induction m with
  | nil => rfl
  | cons c m ih =>
    have hc : a < c.1 := h c (by simp)
    simp only [Memory.read]
    rw [if_neg (by omega), ih (fun d hd => h d (by simp [hd]))]

/-- Memories in canonical form that read alike are equal. -/
theorem Memory.ext_of_read {m n : Memory} (hm : m.wf = true) (hn : n.wf = true)
    (h : ∀ a, m.read a = n.read a) : m = n := by
  induction m generalizing n with
  | nil =>
    cases n with
    | nil => rfl
    | cons d n =>
      have := h d.1
      simp only [Memory.read, ↓reduceIte] at this
      exact absurd this.symm (Memory.wf_cons.1 hn).2.1
  | cons c m ih =>
    obtain ⟨_, c2, c3, c4⟩ := Memory.wf_cons.1 hm
    cases n with
    | nil =>
      have := h c.1
      simp only [Memory.read, ↓reduceIte] at this
      exact absurd this c2
    | cons d n =>
      obtain ⟨_, d2, d3, d4⟩ := Memory.wf_cons.1 hn
      have key : c.1 = d.1 := by
        rcases Nat.lt_trichotomy c.1 d.1 with hlt | heq | hgt
        · have := h c.1
          rw [Memory.read_of_lt (m := d :: n) (a := c.1)
            (fun e he => by rcases List.mem_cons.1 he with rfl | he; exacts [hlt, Nat.lt_trans hlt (d3 e he)])] at this
          simp only [Memory.read, ↓reduceIte] at this
          exact absurd this c2
        · exact heq
        · have := h d.1
          rw [Memory.read_of_lt (m := c :: m) (a := d.1)
            (fun e he => by rcases List.mem_cons.1 he with rfl | he; exacts [hgt, Nat.lt_trans hgt (c3 e he)])] at this
          simp only [Memory.read, ↓reduceIte] at this
          exact absurd this.symm d2
      have hval : c.2 = d.2 := by
        have := h c.1
        simpa [Memory.read, key] using this
      have htail : m = n := by
        refine ih c4 d4 (fun a => ?_)
        by_cases ha : a = c.1
        · rw [ha, Memory.read_of_lt c3, Memory.read_of_lt (key ▸ d3)]
        · have := h a
          simp only [Memory.read] at this
          rwa [if_neg (fun e => ha e.symm), if_neg (fun e => ha (by rw [key, e]))] at this
      rw [htail, Prod.ext key hval]

/-! ### Display -/

/-- A pixel read after a pixel write. -/
theorem Display.pixel_setPixel (d : Display) (r r' : Fin 32) (c c' : Fin 64) (b : Bool) :
    (d.setPixel r c b).pixel r' c' = if r' = r ∧ c' = c then b else d.pixel r' c' := by
  unfold Display.setPixel Display.pixel
  rw [Vector.getElem_set]
  by_cases hr : r' = r
  · subst hr
    rw [if_pos rfl, Vector.getElem_set]
    by_cases hc : c' = c
    · subst hc; simp
    · have : ¬ c.val = c'.val := fun e => hc (Fin.ext e.symm)
      simp [this, hc]
  · have : ¬ r.val = r'.val := fun e => hr (Fin.ext e.symm)
    simp [this, hr]

@[simp] theorem Display.pixel_blank (r : Fin 32) (c : Fin 64) : Display.blank.pixel r c = false := by
  simp [Display.blank, Display.pixel]

/-- Equal pixels are equal buffers. -/
theorem Display.ext_of_pixel {d e : Display} (h : ∀ r c, d.pixel r c = e.pixel r c) : d = e := by
  ext r hr c hc
  exact h ⟨r, hr⟩ ⟨c, hc⟩

end Sys2Proof.Machine
end

