-- ==== Sys2Proof/Laws/Exec.lean ====
section
/-! SUPPORT. What the shared operations of the instructions can do, each said once: the halt, the skip, the loops over
registers, bytes and pixels; and one inversion lemma of exec: an instruction halts with nothing done, or completes with
the control state as it was. -/

namespace Sys2Proof.Machine

/-! ### The fatal halt -/

/-- During Execute pc = a + 2, so the address fetched from is a (00_scope.md R9). -/
@[simp] theorem State.fetchedFrom_advancePc (s : State) : s.advancePc.fetchedFrom = s.pc := by
  show s.pc + 2#16 - 2#16 = s.pc
  rw [BitVec.add_sub_cancel]

theorem State.fetchedFrom_of_pc {s : State} {a : Word} (h : s.pc = a + 2#16) : s.fetchedFrom = a := by
  show s.pc - 2#16 = a
  rw [h, BitVec.add_sub_cancel]

theorem raiseHalt_def (c : FaultCause) (i : Instr) (s : State) :
    raiseHalt c i s = .next ((s.setPc s.fetchedFrom).haltEntry c s.fetchedFrom (encode i)) := rfl

/-- What raising a halt leaves. -/
theorem raiseHalt_haltsWith (c : FaultCause) (i : Instr) {s : State} {a : Word} (h : s.pc = a + 2#16) :
    HaltsWith (raiseHalt c i s) s c a (encode i) := by
  refine ⟨(s.setPc a).haltEntry c a (encode i), ?_, ⟨rfl, rfl, rfl, rfl, rfl, rfl⟩, ?_⟩
  · rw [raiseHalt_def, State.fetchedFrom_of_pc h]
  · exact ⟨rfl, rfl, rfl, rfl, rfl, rfl, rfl, rfl, rfl, rfl, rfl, rfl⟩

/-! ### Data addresses (20_memory.md R46) -/

theorem State.dataRangeFaults_iff (s : State) (n : Nat) :
    s.dataRangeFaults n = true ↔ 1 ≤ n ∧ s.I.toNat + n - 1 > 4095 := by
  unfold State.dataRangeFaults State.dataAddr
  rw [Bool.and_eq_true, decide_eq_true_eq, decide_eq_true_eq]
  constructor <;> rintro ⟨h, h'⟩ <;> exact ⟨h, by omega⟩

theorem State.dataRangeFaults_eq_false {s : State} {n : Nat} (h : s.I.toNat + n ≤ 4096) :
    s.dataRangeFaults n = false := by
  rw [Bool.eq_false_iff, ne_eq, State.dataRangeFaults_iff]
  omega

/-! ### The skip -/

theorem skipIf_eq (c : Bool) (s : State) : skipIf c s = s.setPc (if c then s.pc + 2#16 else s.pc) := by
  cases c <;> rfl

/-! ### The store loop (42_index_memory.md R124) -/

theorem storeLoop_eq (s : State) (n : Nat) :
    (List.range n).foldl storeReg s = { s with mem := ((List.range n).foldl storeReg s).mem } := by
  induction n with
  | zero => rfl
  | succ n ih =>
    simp only [List.range_succ, List.foldl_append, List.foldl_cons, List.foldl_nil]
    rw [ih]
    rfl

theorem storeLoop_reg (s : State) (n : Nat) (k : RegIdx) : ((List.range n).foldl storeReg s).reg k = s.reg k := by
  rw [storeLoop_eq]
  rfl

theorem storeLoop_wf {s : State} (n : Nat) (h : s.mem.wf = true) : ((List.range n).foldl storeReg s).mem.wf = true := by
  induction n with
  | zero => exact h
  | succ n ih =>
    simp only [List.range_succ, List.foldl_append, List.foldl_cons, List.foldl_nil, storeReg, State.writeByte_mem]
    exact Memory.wf_write _ _ ih

/-- The bytes after the store loop. -/
theorem storeLoop_readByte {s : State} {n : Nat} (h : s.I.toNat + n ≤ 4096) (a : Nat) :
    ((List.range n).foldl storeReg s).readByte a =
      if s.I.toNat ≤ a ∧ a < s.I.toNat + n then s.reg (regNumber (a - s.I.toNat)) else s.readByte a := by
  induction n with
  | zero => rw [if_neg (by omega)]; rfl
  | succ n ih =>
    have hI : ((List.range n).foldl storeReg s).I = s.I := by rw [storeLoop_eq]
    simp only [List.range_succ, List.foldl_append, List.foldl_cons, List.foldl_nil, storeReg]
    rw [State.readByte_writeByte, storeLoop_reg, ih (by omega)]
    simp only [State.dataAddr, hI]
    by_cases ha : a = s.I.toNat + n
    · rw [if_pos ⟨ha, by omega⟩, if_pos (by omega), show a - s.I.toNat = n by omega]
    · rw [if_neg (by omega)]
      by_cases hr : s.I.toNat ≤ a ∧ a < s.I.toNat + n
      · rw [if_pos hr, if_pos (by omega)]
      · rw [if_neg hr, if_neg (by omega)]

/-! ### The load loop (42_index_memory.md R125) -/

theorem loadLoop_eq (s : State) (n : Nat) :
    (List.range n).foldl loadReg s = { s with V := ((List.range n).foldl loadReg s).V } := by
  induction n with
  | zero => rfl
  | succ n ih =>
    simp only [List.range_succ, List.foldl_append, List.foldl_cons, List.foldl_nil]
    rw [ih]
    rfl

/-- The registers after the load loop. -/
theorem loadLoop_reg (s : State) {n : Nat} (h : n ≤ 16) (k : RegIdx) :
    ((List.range n).foldl loadReg s).reg k =
      if k.toNat < n then s.readByte (s.I.toNat + k.toNat) else s.reg k := by
  induction n with
  | zero => rfl
  | succ n ih =>
    have e := loadLoop_eq s n
    have hI : ((List.range n).foldl loadReg s).I = s.I := by rw [e]
    have hM : ∀ a, ((List.range n).foldl loadReg s).readByte a = s.readByte a := by intro a; rw [e]; rfl
    simp only [List.range_succ, List.foldl_append, List.foldl_cons, List.foldl_nil, loadReg]
    rw [State.reg_setReg, ih (by omega), hM]
    simp only [State.dataAddr, hI]
    have hn : (regNumber n).toNat = n := regNumber_toNat (by omega)
    by_cases hk : k = regNumber n
    · rw [if_pos hk, if_pos (by rw [hk, hn]; omega), hk, hn]
    · have : k.toNat ≠ n := fun e => hk (by rw [← regNumber_of_toNat k, e])
      rw [if_neg hk]
      by_cases hr : k.toNat < n
      · rw [if_pos hr, if_pos (by omega)]
      · rw [if_neg hr, if_neg (by omega)]

/-! ### The BCD stores (42_index_memory.md R123) -/

theorem storeBcd_eq (v : Byte) (s : State) : storeBcd v s = { s with mem := (storeBcd v s).mem } := rfl

theorem storeBcd_wf (v : Byte) {s : State} (h : s.mem.wf = true) : (storeBcd v s).mem.wf = true :=
  Memory.wf_write _ _ (Memory.wf_write _ _ (Memory.wf_write _ _ h))

/-- The bytes after LD B,Vx's stores. -/
theorem storeBcd_readByte (v : Byte) {s : State} (h : s.I.toNat + 2 ≤ 4095) (a : Nat) :
    (storeBcd v s).readByte a =
      if a = s.I.toNat then hundredsDigit v else if a = s.I.toNat + 1 then tensDigit v
      else if a = s.I.toNat + 2 then onesDigit v else s.readByte a := by
  simp only [storeBcd, State.readByte_writeByte, State.dataAddr, Nat.add_zero]
  by_cases h0 : a = s.I.toNat
  · rw [if_neg (by omega), if_neg (by omega), if_pos (by omega), if_pos h0]
  by_cases h1 : a = s.I.toNat + 1
  · rw [if_neg (by omega), if_pos (by omega), if_neg h0, if_pos h1]
  by_cases h2 : a = s.I.toNat + 2
  · rw [if_pos (by omega), if_neg h0, if_neg h1, if_pos h2]
  · rw [if_neg (by omega), if_neg (by omega), if_neg (by omega), if_neg h0, if_neg h1, if_neg h2]

/-! ### The drawing loops (43_display.md R141) -/

/-- Plotting touches V and the display only. -/
theorem plotBits_eq (x y : RegIdx) (r : Nat) (byte : Byte) (bs : List Nat) (s : State) :
    bs.foldl (plotBit x y r byte) s =
      { s with V := (bs.foldl (plotBit x y r byte) s).V, disp := (bs.foldl (plotBit x y r byte) s).disp } := by
  induction bs generalizing s with
  | nil => rfl
  | cons b bs ih =>
    simp only [List.foldl_cons]
    rw [ih]
    rfl

/-- Plotting writes no register but VF. -/
theorem plotBits_reg {x y : RegIdx} (r : Nat) (byte : Byte) (bs : List Nat) (s : State) {k : RegIdx} (h : k ≠ VF) :
    (bs.foldl (plotBit x y r byte) s).reg k = s.reg k := by
  induction bs generalizing s with
  | nil => rfl
  | cons b bs ih =>
    simp only [List.foldl_cons]
    rw [ih]
    simp only [plotBit]
    rw [State.reg_setReg_other _ _ h, State.setPixel_reg]

theorem drawSprite_succ (x y : RegIdx) (n : Nat) (s : State) :
    drawSprite x y (n + 1) s = plotRow x y (drawSprite x y n s) n := by
  simp only [drawSprite, List.range_succ, List.foldl_append, List.foldl_cons, List.foldl_nil]

@[simp] theorem drawSprite_zero (x y : RegIdx) (s : State) : drawSprite x y 0 s = s := rfl

/-- Drawing touches V and the display only. -/
theorem drawSprite_eq (x y : RegIdx) (n : Nat) (s : State) :
    drawSprite x y n s = { s with V := (drawSprite x y n s).V, disp := (drawSprite x y n s).disp } := by
  induction n with
  | zero => rfl
  | succ n ih =>
    rw [drawSprite_succ]
    unfold plotRow
    rw [plotBits_eq, ih]

/-- Drawing writes no register but VF. -/
theorem drawSprite_reg {x y : RegIdx} (n : Nat) (s : State) {k : RegIdx} (h : k ≠ VF) :
    (drawSprite x y n s).reg k = s.reg k := by
  induction n with
  | zero => rfl
  | succ n ih =>
    rw [drawSprite_succ]
    unfold plotRow
    rw [plotBits_reg _ _ _ _ h, ih]

theorem drawSprite_I (x y : RegIdx) (n : Nat) (s : State) : (drawSprite x y n s).I = s.I := by
  rw [drawSprite_eq]

theorem drawSprite_readByte (x y : RegIdx) (n : Nat) (s : State) (a : Nat) :
    (drawSprite x y n s).readByte a = s.readByte a := by
  rw [drawSprite_eq]
  rfl

theorem spriteCol_val (vx : Byte) (b : Nat) : (spriteCol vx b).val = (vx.toNat + (7 - b)) % 64 := rfl

theorem spriteRow_val (vy : Byte) (r : Nat) : (spriteRow vy r).val = (vy.toNat + r) % 32 := rfl

/-! ### exec: an instruction halts with nothing done, or completes -/

/-- What every completed instruction leaves as it was, and the bounds on what it may do to pc, the stack, Memory's form
and the refresh-owed flag. -/
structure Completes (i : Instr) (s t : State) : Prop where
  control : KeepsControl s t
  pc : t.pc = s.pc ∨ t.pc = s.pc + 2#16 ∨ t.pc.toNat ≤ 4095 ∨ t.pc ∈ s.stack
  stack : t.stack = s.stack ∨ t.stack = s.stack.tail ∨ (t.stack = s.pc :: s.stack ∧ s.stack.length ≠ s.stackDepth)
  memory : s.mem.wf = true → t.mem.wf = true
  refresh : t.refreshOwed = (s.refreshOwed || drawsDisplay i)

theorem KeepsControl.refl (s : State) : KeepsControl s s := ⟨rfl, rfl, rfl, rfl, rfl, rfl, rfl, rfl, rfl, rfl⟩

/-- A state that differs in V, I and the count of draws only completes an instruction that draws nothing. -/
theorem Completes.of_regs {i : Instr} {s t : State} (hd : drawsDisplay i = false)
    (h : t = { s with V := t.V, I := t.I, rndDraws := t.rndDraws }) : Completes i s t := by
  rw [h]
  exact ⟨⟨rfl, rfl, rfl, rfl, rfl, rfl, rfl, rfl, rfl, rfl⟩, .inl rfl, .inl rfl, id, by simp [hd]⟩

theorem Completes.of_setPc {i : Instr} {s : State} {w : Word} (hd : drawsDisplay i = false)
    (h : w = s.pc ∨ w = s.pc + 2#16 ∨ w.toNat ≤ 4095 ∨ w ∈ s.stack) : Completes i s (s.setPc w) :=
  ⟨⟨rfl, rfl, rfl, rfl, rfl, rfl, rfl, rfl, rfl, rfl⟩, h, .inl rfl, id, by simp [hd]⟩

theorem Completes.of_skip {i : Instr} {s : State} (c : Bool) (hd : drawsDisplay i = false) :
    Completes i s (skipIf c s) := by
  rw [skipIf_eq]
  refine Completes.of_setPc hd ?_
  cases c <;> simp

theorem zextAddr_toNat (nnn : Addr12) : (zextAddr nnn).toNat = nnn.toNat := by
  have := nnn.isLt
  simp only [zextAddr, BitVec.toNat_setWidth]
  omega

theorem zextAddr_le (nnn : Addr12) : (zextAddr nnn).toNat ≤ 4095 := by
  have := nnn.isLt
  rw [zextAddr_toNat]
  omega

/-- The inversion of exec: a raised halt, never for a fetch, or a completed instruction. -/
theorem exec_cases (i : Instr) (s : State) :
    (∃ c, c ≠ .none ∧ c ≠ .fetchRange ∧ exec i s = raiseHalt c i s) ∨ (∃ t, exec i s = .next t ∧ Completes i s t) := by
  cases i with
  | cls => exact .inr ⟨_, rfl, ⟨rfl, rfl, rfl, rfl, rfl, rfl, rfl, rfl, rfl, rfl⟩, .inl rfl, .inl rfl, id, by simp [drawsDisplay]⟩
  | ret =>
    cases hs : s.stack with
    | nil => exact .inl ⟨.stackUnderflow, by decide, by decide, by simp only [exec, execRet, hs]⟩
    | cons w ws =>
      refine .inr ⟨s.dropTop.setPc w, by simp only [exec, execRet, hs], ⟨rfl, rfl, rfl, rfl, rfl, rfl, rfl, rfl, rfl, rfl⟩,
        .inr (.inr (.inr (by simp [hs]))), .inr (.inl rfl), id, by simp [drawsDisplay]⟩
  | jp nnn => exact .inr ⟨_, rfl, Completes.of_setPc rfl (.inr (.inr (.inl (zextAddr_le nnn))))⟩
  | call nnn =>
    by_cases h : s.stack.length = s.stackDepth
    · exact .inl ⟨.stackOverflow, by decide, by decide, by simp only [exec, execCall, h, if_true]⟩
    · refine .inr ⟨(s.push s.pc).setPc (zextAddr nnn), by simp only [exec, execCall, h, if_false],
        ⟨rfl, rfl, rfl, rfl, rfl, rfl, rfl, rfl, rfl, rfl⟩, .inr (.inr (.inl (zextAddr_le nnn))),
        .inr (.inr ⟨rfl, h⟩), id, by simp [drawsDisplay]⟩
  | seImm x nn => exact .inr ⟨_, rfl, Completes.of_skip _ rfl⟩
  | sneImm x nn => exact .inr ⟨_, rfl, Completes.of_skip _ rfl⟩
  | seReg x y => exact .inr ⟨_, rfl, Completes.of_skip _ rfl⟩
  | sneReg x y => exact .inr ⟨_, rfl, Completes.of_skip _ rfl⟩
  | ldImm x nn => exact .inr ⟨_, rfl, Completes.of_regs rfl rfl⟩
  | addImm x nn => exact .inr ⟨_, rfl, Completes.of_regs rfl rfl⟩
  | ldReg x y => exact .inr ⟨_, rfl, Completes.of_regs rfl rfl⟩
  | orReg x y => exact .inr ⟨_, rfl, Completes.of_regs rfl rfl⟩
  | andReg x y => exact .inr ⟨_, rfl, Completes.of_regs rfl rfl⟩
  | xorReg x y => exact .inr ⟨_, rfl, Completes.of_regs rfl rfl⟩
  | addReg x y => exact .inr ⟨_, rfl, Completes.of_regs rfl rfl⟩
  | subReg x y => exact .inr ⟨_, rfl, Completes.of_regs rfl rfl⟩
  | shr x y => exact .inr ⟨_, rfl, Completes.of_regs rfl rfl⟩
  | shl x y => exact .inr ⟨_, rfl, Completes.of_regs rfl rfl⟩
  | rnd x nn => exact .inr ⟨_, rfl, Completes.of_regs rfl rfl⟩
  | ldI nnn => exact .inr ⟨_, rfl, Completes.of_regs rfl rfl⟩
  | addI x => exact .inr ⟨_, rfl, Completes.of_regs rfl rfl⟩
  | ldF x => exact .inr ⟨_, rfl, Completes.of_regs rfl rfl⟩
  | drw x y n =>
    by_cases h : s.dataRangeFaults n.toNat = true
    · exact .inl ⟨.dataRange, by decide, by decide, by simp only [exec, execDrw, h, if_true]⟩
    · refine .inr ⟨(drawSprite x y n.toNat s).markRefresh, by simp only [exec, execDrw, h]; rfl, ?_⟩
      rw [drawSprite_eq]
      exact ⟨⟨rfl, rfl, rfl, rfl, rfl, rfl, rfl, rfl, rfl, rfl⟩, .inl rfl, .inl rfl, id, by simp [drawsDisplay]⟩
  | ldB x =>
    by_cases h : s.dataRangeFaults 3 = true
    · exact .inl ⟨.dataRange, by decide, by decide, by simp only [exec, execLdB, h, if_true]⟩
    · exact .inr ⟨storeBcd (s.reg x) s, by simp only [exec, execLdB, h]; rfl,
        ⟨rfl, rfl, rfl, rfl, rfl, rfl, rfl, rfl, rfl, rfl⟩, .inl rfl, .inl rfl, storeBcd_wf _,
        (Bool.or_false s.refreshOwed).symm⟩
  | storeRegs x =>
    by_cases h : s.dataRangeFaults (x.toNat + 1) = true
    · exact .inl ⟨.dataRange, by decide, by decide, by simp only [exec, execStoreRegs, h, if_true]⟩
    · refine .inr ⟨_, by simp only [exec, execStoreRegs, h]; rfl, ?_⟩
      have hw : s.mem.wf = true → _ := storeLoop_wf (s := s) (x.toNat + 1)
      rw [storeLoop_eq] at hw ⊢
      exact ⟨⟨rfl, rfl, rfl, rfl, rfl, rfl, rfl, rfl, rfl, rfl⟩, .inl rfl, .inl rfl, hw,
        (Bool.or_false s.refreshOwed).symm⟩
  | loadRegs x =>
    by_cases h : s.dataRangeFaults (x.toNat + 1) = true
    · exact .inl ⟨.dataRange, by decide, by decide, by simp only [exec, execLoadRegs, h, if_true]⟩
    · refine .inr ⟨_, by simp only [exec, execLoadRegs, h]; rfl, ?_⟩
      rw [loadLoop_eq]
      exact Completes.of_regs rfl rfl
  | unrecognized op => exact .inr ⟨_, rfl, Completes.of_regs rfl rfl⟩

/-! ### The cycle's end -/

theorem finishCycle_halted {op : Word} {i : Instr} {s : State} (h : s.sched = .halted) : finishCycle op i s = s := by
  simp [finishCycle, h]

theorem finishCycle_running {op : Word} {i : Instr} {s : State} (h : s.sched ≠ .halted) :
    finishCycle op i s = rearm (renderHandOff (emitDiag op i s)) := by
  simp [finishCycle, h]

/-- The end of a cycle touches the refresh-owed flag, armed and the output port only. -/
theorem finishCycle_eq (op : Word) (i : Instr) (s : State) :
    finishCycle op i s = { s with
      refreshOwed := (finishCycle op i s).refreshOwed
      armed := (finishCycle op i s).armed
      emitted := (finishCycle op i s).emitted } := by
  by_cases h : s.sched = .halted
  · rw [finishCycle_halted h]
  · rw [finishCycle_running h]
    unfold renderHandOff
    split <;> rfl

theorem finishCycle_refreshOwed {op : Word} {i : Instr} {s : State} (h : s.sched ≠ .halted) :
    (finishCycle op i s).refreshOwed = false := by
  rw [finishCycle_running h]
  unfold renderHandOff
  split
  · rfl
  · rename_i hr
    exact Bool.not_eq_true _ ▸ hr

theorem finishCycle_armed {op : Word} {i : Instr} {s : State} (h : s.sched ≠ .halted) :
    (finishCycle op i s).armed = decide (s.sched = .running) := by
  rw [finishCycle_running h]
  unfold renderHandOff
  split <;> rfl

theorem finishCycle_emitted {op : Word} {i : Instr} {s : State} (h : s.sched ≠ .halted) :
    (finishCycle op i s).emitted =
      s.emitted ++ .diag op i.recognized :: (if s.refreshOwed then [.render s.disp] else []) := by
  rw [finishCycle_running h]
  unfold renderHandOff
  cases hr : s.refreshOwed
  · simp [rearm, emitDiag, hr]
  · simp [rearm, emitDiag, hr]

end Sys2Proof.Machine
end

