-- ==== Sys2Proof/Laws/PerInstr.lean ====
section
/-! SUPPORT. The family EncodesInMap, one lemma per constructor: a recognised instruction's opcode is in the opcode map
(30_encoding.md R66). -/

namespace Sys2Proof.Laws.EncodesInMap

def Statement (i : Instr) : Prop := i.recognized = true → inMap (encode i) = true

theorem cls : Statement .cls := fun _ => by decide

theorem ret : Statement .ret := fun _ => by decide

theorem ofA {c : Nat} (nnn : Addr12) (h : c ∈ [1, 2, 0xA]) : inMap (encodeA c nnn) = true := by
  have := nnn.isLt
  simp only [List.mem_cons, List.not_mem_nil, or_false] at h
  have e := encodeA_toNat (c := c) nnn (by omega)
  have q : (encodeA c nnn).toNat / 4096 = c := by omega
  rw [inMap_iff, q]
  rcases h with rfl | rfl | rfl <;> simp

theorem ofI {c : Nat} (x : RegIdx) (nn : Byte) (h : c ∈ [3, 4, 6, 7, 0xC]) : inMap (encodeI c x nn) = true := by
  have := nn.isLt
  have := x.isLt
  simp only [List.mem_cons, List.not_mem_nil, or_false] at h
  have e := encodeI_toNat (c := c) x nn (by omega)
  have q : (encodeI c x nn).toNat / 4096 = c := by omega
  rw [inMap_iff, q]
  rcases h with rfl | rfl | rfl | rfl | rfl <;> simp

theorem ofF {nn : Byte} (x : RegIdx) (h : nn ∈ [0x1E#8, 0x29#8, 0x33#8, 0x55#8, 0x65#8]) :
    inMap (encodeI 0xF x nn) = true := by
  have := nn.isLt
  have := x.isLt
  have e := encodeI_toNat (c := 0xF) x nn (by omega)
  have q : (encodeI 0xF x nn).toNat / 4096 = 0xF := by omega
  have r : (encodeI 0xF x nn).toNat % 256 = nn.toNat := by omega
  rw [inMap_iff, q, r]
  simp only [List.mem_cons, List.not_mem_nil, or_false] at h
  rcases h with rfl | rfl | rfl | rfl | rfl <;> simp

theorem of8 {n : BitVec 4} (x y : RegIdx) (h : n ∈ [0#4, 1#4, 2#4, 3#4, 4#4, 5#4, 6#4, 0xE#4]) :
    inMap (encodeR 8 x y n) = true := by
  have := n.isLt
  have := x.isLt
  have := y.isLt
  have e := encodeR_toNat (c := 8) x y n (by omega)
  have q : (encodeR 8 x y n).toNat / 4096 = 8 := by omega
  have r : (encodeR 8 x y n).toNat % 16 = n.toNat := by omega
  rw [inMap_iff, q, r]
  simp only [List.mem_cons, List.not_mem_nil, or_false] at h
  rcases h with rfl | rfl | rfl | rfl | rfl | rfl | rfl | rfl <;> simp

theorem ofSkip {c : Nat} (x y : RegIdx) (h : c ∈ [5, 9]) : inMap (encodeR c x y 0#4) = true := by
  have := x.isLt
  have := y.isLt
  simp only [List.mem_cons, List.not_mem_nil, or_false] at h
  have e := encodeR_toNat (c := c) x y 0#4 (by omega)
  have z : (0#4 : BitVec 4).toNat = 0 := rfl
  have q : (encodeR c x y 0#4).toNat / 4096 = c := by omega
  have r : (encodeR c x y 0#4).toNat % 16 = 0 := by omega
  rw [inMap_iff, q, r]
  rcases h with rfl | rfl <;> simp

theorem jp (nnn : Addr12) : Statement (.jp nnn) := fun _ => ofA nnn (by decide)

theorem call (nnn : Addr12) : Statement (.call nnn) := fun _ => ofA nnn (by decide)

theorem seImm (x : RegIdx) (nn : Byte) : Statement (.seImm x nn) := fun _ => ofI x nn (by decide)

theorem sneImm (x : RegIdx) (nn : Byte) : Statement (.sneImm x nn) := fun _ => ofI x nn (by decide)

theorem seReg (x y : RegIdx) : Statement (.seReg x y) := fun _ => ofSkip x y (by decide)

theorem ldImm (x : RegIdx) (nn : Byte) : Statement (.ldImm x nn) := fun _ => ofI x nn (by decide)

theorem addImm (x : RegIdx) (nn : Byte) : Statement (.addImm x nn) := fun _ => ofI x nn (by decide)

theorem ldReg (x y : RegIdx) : Statement (.ldReg x y) := fun _ => of8 x y (by decide)

theorem orReg (x y : RegIdx) : Statement (.orReg x y) := fun _ => of8 x y (by decide)

theorem andReg (x y : RegIdx) : Statement (.andReg x y) := fun _ => of8 x y (by decide)

theorem xorReg (x y : RegIdx) : Statement (.xorReg x y) := fun _ => of8 x y (by decide)

theorem addReg (x y : RegIdx) : Statement (.addReg x y) := fun _ => of8 x y (by decide)

theorem subReg (x y : RegIdx) : Statement (.subReg x y) := fun _ => of8 x y (by decide)

theorem shr (x y : RegIdx) : Statement (.shr x y) := fun _ => of8 x y (by decide)

theorem shl (x y : RegIdx) : Statement (.shl x y) := fun _ => of8 x y (by decide)

theorem sneReg (x y : RegIdx) : Statement (.sneReg x y) := fun _ => ofSkip x y (by decide)

theorem ldI (nnn : Addr12) : Statement (.ldI nnn) := fun _ => ofA nnn (by decide)

theorem rnd (x : RegIdx) (nn : Byte) : Statement (.rnd x nn) := fun _ => ofI x nn (by decide)

theorem drw (x y : RegIdx) (n : BitVec 4) : Statement (.drw x y n) := fun _ => by
  have := n.isLt
  have := x.isLt
  have := y.isLt
  have e := encodeR_toNat (c := 0xD) x y n (by omega)
  have q : (encode (.drw x y n)).toNat / 4096 = 0xD := by simp only [encode]; omega
  rw [inMap_iff, q]
  simp

theorem addI (x : RegIdx) : Statement (.addI x) := fun _ => ofF x (by decide)

theorem ldF (x : RegIdx) : Statement (.ldF x) := fun _ => ofF x (by decide)

theorem ldB (x : RegIdx) : Statement (.ldB x) := fun _ => ofF x (by decide)

theorem storeRegs (x : RegIdx) : Statement (.storeRegs x) := fun _ => ofF x (by decide)

theorem loadRegs (x : RegIdx) : Statement (.loadRegs x) := fun _ => ofF x (by decide)

theorem unrecognized (op : Word) : Statement (.unrecognized op) := fun h => by cases h

end Sys2Proof.Laws.EncodesInMap
end

