-- ==== Sys2Proof/Laws/Step.lean ====
section
/-! SUPPORT. What a step can do, said once: the core's turn or a host event; a cycle halts at the fetch, halts in the
instruction, or completes. And the two loops of boot. -/

namespace Sys2Proof.Machine

/-- The state at the start of a step: the output port empty, the host's action taken. -/
abbrev State.begin (s : State) : State := s.clearEmitted.dropAction

theorem State.begin_of_nil {s : State} (h : s.hostActions = []) : s.begin = s.clearEmitted := by
  cases s
  simp only at h
  subst h
  rfl

theorem step_coreTurn {s : State} (h : s.coreTurn) : step s = coreStep s.begin := by
  rcases h with h | h
  · rw [State.begin_of_nil h]
    simp only [step, h]
  · cases ha : s.hostActions with
    | nil => simp [ha] at h
    | cons a rest =>
      simp only [ha, List.head?_cons, Option.some.injEq] at h
      subst h
      simp only [step, ha, takeAction]

theorem step_cons {s : State} {a : HostAction} {rest : List HostAction} (h : s.hostActions = a :: rest) :
    step s = takeAction a s.begin := by
  simp only [step, h]

theorem coreStep_enabled {s : State} (h : s.cycleEnabled = true) : coreStep s = cycle s := by simp [coreStep, h]

theorem coreStep_idle {s : State} (h : s.cycleEnabled = false) : coreStep s = .next s := by simp [coreStep, h]

theorem State.cycleEnabled_iff (s : State) : s.cycleEnabled = true ↔ s.armed = true ∧ s.sched ≠ .halted := by
  simp [State.cycleEnabled]

theorem State.fetchWord_some {s : State} (h : s.pc.toNat + 1 < 4096) :
    s.fetchWord = some (wordOfBytes (s.readByte s.pc.toNat) (s.readByte (s.pc.toNat + 1))) := by
  have h' : s.pc.toNat + 1 < Config.memSize := h
  simp only [State.fetchWord, h', if_true]

theorem State.fetchWord_none {s : State} (h : ¬ s.pc.toNat + 1 < 4096) : s.fetchWord = none := by
  have h' : ¬ s.pc.toNat + 1 < Config.memSize := h
  simp only [State.fetchWord, h', if_false]

theorem State.pc_of_fetchWord {s : State} {op : Word} (h : s.fetchWord = some op) : s.pc.toNat + 1 < 4096 := by
  by_contra hc
  rw [State.fetchWord_none hc] at h
  cases h

theorem cycle_none {s : State} (h : s.fetchWord = none) : cycle s = .next (s.haltEntry .fetchRange s.pc 0#16) := by
  simp only [cycle, h]

theorem cycle_next {s t : State} {op : Word} (h : s.fetchWord = some op)
    (he : exec (decodeOpcode op) s.advancePc = .next t) : cycle s = .next (finishCycle op (decodeOpcode op) t) := by
  simp only [cycle, h, he]

/-- An instruction that raises a halt ends the cycle in the halt entry on the state with which the cycle began. -/
theorem cycle_halt {s : State} {op : Word} {c : FaultCause} (h : s.fetchWord = some op)
    (he : exec (decodeOpcode op) s.advancePc = raiseHalt c (decodeOpcode op) s.advancePc) :
    cycle s = .next (s.haltEntry c s.pc (encode (decodeOpcode op))) := by
  rw [raiseHalt_def, State.fetchedFrom_advancePc] at he
  rw [cycle_next h he, finishCycle_halted rfl]
  rfl

/-- The inversion of a cycle: it halts at the fetch, halts in the instruction, or completes it. -/
theorem cycle_cases (s : State) :
    (s.fetchWord = none ∧ cycle s = .next (s.haltEntry .fetchRange s.pc 0#16)) ∨
    ∃ op, s.fetchWord = some op ∧
      ((∃ c, c ≠ .none ∧ c ≠ .fetchRange ∧ exec (decodeOpcode op) s.advancePc = raiseHalt c (decodeOpcode op) s.advancePc ∧
          cycle s = .next (s.haltEntry c s.pc (encode (decodeOpcode op)))) ∨
        ∃ t, exec (decodeOpcode op) s.advancePc = .next t ∧ Completes (decodeOpcode op) s.advancePc t ∧
          cycle s = .next (finishCycle op (decodeOpcode op) t)) := by
  cases h : s.fetchWord with
  | none => exact .inl ⟨rfl, cycle_none h⟩
  | some op =>
    refine .inr ⟨op, rfl, ?_⟩
    rcases exec_cases (decodeOpcode op) s.advancePc with ⟨c, hc, hf, he⟩ | ⟨t, he, ht⟩
    · exact .inl ⟨c, hc, hf, he, cycle_halt h he⟩
    · exact .inr ⟨t, he, ht, cycle_next h he⟩

/-! ### Runs and boot -/

theorem stepN_succ {n : Nat} {s t : State} (h : step s = .next t) : stepN (n + 1) s = stepN n t := by
  simp only [stepN, h]

/-- The host's run of the core is `stepN`. -/
theorem run_eq_stepN (n : Nat) (s : State) : Host.Core.run Sys2Proof.core n s = stepN n s := by
  induction n generalizing s with
  | zero => rfl
  | succ n ih =>
    simp only [Host.Core.run, stepN]
    cases h : step s with
    | next t =>
      have h' : Sys2Proof.core.step s = .next t := h
      simp only [h']
      exact ih t
    | fault r => cases r
    | refused r =>
      have h' : Sys2Proof.core.step s = .refused r := h
      simp only [h']
      rfl

/-- A run of `m + n` steps is a run of `m` steps and then of `n`. -/
theorem stepN_add {m n : Nat} {s t : State} (h : stepN m s = .next t) : stepN (m + n) s = stepN n t := by
  induction m generalizing s with
  | zero =>
    simp only [stepN, Host.Outcome.next.injEq] at h
    rw [Nat.zero_add, h]
  | succ m ih =>
    cases hs : step s with
    | next u =>
      rw [stepN_succ hs] at h
      rw [Nat.add_right_comm, stepN_succ hs]
      exact ih h
    | fault r => simp [stepN, hs] at h
    | refused r => simp [stepN, hs] at h

/-- The memory the loads of `bytes` from `base` leave. -/
def loadedMemory (base : Nat) : List Byte → Memory → Memory
  | [], m => m
  | b :: bs, m => loadedMemory (base + 1) bs (m.write base b)

theorem loadedMemory_read (bytes : List Byte) (base : Nat) (m : Memory) (h : base + bytes.length ≤ 4096) (a : Nat) :
    (loadedMemory base bytes m).read a =
      if base ≤ a ∧ a < base + bytes.length then bytes.getD (a - base) 0#8 else m.read a := by
  induction bytes generalizing base m with
  | nil => simp only [loadedMemory, List.length_nil]; rw [if_neg (by omega)]
  | cons b bs ih =>
    simp only [List.length_cons] at h ⊢
    simp only [loadedMemory]
    rw [ih (base + 1) _ (by omega), Memory.read_write]
    by_cases ha : a = base
    · subst ha
      rw [if_neg (by omega), if_pos (by omega), if_pos (by omega), Nat.sub_self]
      rfl
    · by_cases hr : base + 1 ≤ a ∧ a < base + 1 + bs.length
      · rw [if_pos hr, if_pos (by omega)]
        obtain ⟨j, rfl⟩ : ∃ j, a = base + 1 + j := ⟨a - (base + 1), by omega⟩
        rw [show base + 1 + j - (base + 1) = j by omega, show base + 1 + j - base = j + 1 by omega]
        rfl
      · rw [if_neg hr, if_neg (by omega), if_neg (by omega)]

theorem hostLoad_open {s : State} {addr : Nat} (b : Byte) (hs : s.started = false) (h : addr < 4096) :
    hostLoad addr b s = s.writeByte addr b := by
  have h' : addr < Config.memSize := h
  simp [hostLoad, hs, h']

/-- A run through the loads of `bytes`, on a machine not yet started. -/
theorem stepN_loads (bytes : List Byte) (base : Nat) (rest : List HostAction) (s : State) (hs : s.started = false)
    (h : base + bytes.length ≤ 4096) (ha : s.hostActions = loadActions base bytes ++ rest) (he : s.emitted = []) :
    stepN bytes.length s = .next { s with mem := loadedMemory base bytes s.mem, hostActions := rest } := by
  induction bytes generalizing base s with
  | nil =>
    simp only [loadActions, List.nil_append] at ha
    simp only [List.length_nil, stepN, loadedMemory]
    rw [← ha]
  | cons b bs ih =>
    simp only [List.length_cons] at h
    have ha' : s.hostActions = .load base b :: (loadActions (base + 1) bs ++ rest) := by rw [ha]; rfl
    have e : step s = .next { s with mem := s.mem.write base b, hostActions := loadActions (base + 1) bs ++ rest } := by
      rw [step_cons ha']
      simp only [takeAction]
      rw [hostLoad_open (s := s.begin) (addr := base) b hs (by omega)]
      simp only [State.begin, State.dropAction, State.clearEmitted, State.writeByte, ha', he, List.tail_cons]
    rw [List.length_cons, stepN_succ e, ih (base + 1)
      { s with mem := s.mem.write base b, hostActions := loadActions (base + 1) bs ++ rest } hs (by omega) rfl he]
    rfl

end Sys2Proof.Machine
end

