-- ==== Sys2Proof/Tests/Slice0.lean ====
section
/-! SUPPORT. Tests, each a named theorem, with expected results from the spec: encodings from 30_encoding.md R66 and R71,
steps from the vectors of 95_test_vectors.md (cited by their ids); then, for every obligation with hypotheses, states and
operands that meet them, clause by clause, at the boundary values. -/

namespace Sys2Proof.Tests

open Sys2Proof Sys2Proof.Machine

/-! ### Helpers -/

/-- What `f` sees of the next state, if there is one. -/
def see {α : Type} (f : State → α) : Host.Outcome State Fault Refusal → Option α
  | .next t => some (f t)
  | .fault _ => none
  | .refused _ => none

/-- The vectors' start state: reset, started and armed. -/
def ready : State := { State.reset with started := true, armed := true }

/-- An opcode stored at an address, high byte first. -/
def put (a : Nat) (op : Word) (s : State) : State := (s.writeByte a (highByte op)).writeByte (a + 1) (lowByte op)

/-- One cycle on an opcode stored at pc. -/
def cycleOf (op : Word) (s : State) : Host.Outcome State Fault Refusal := step (put s.pc.toNat op s)

/-- Registers written, register by register. -/
def withRegs (l : List (RegIdx × Byte)) (s : State) : State := l.foldl (fun s p => s.setReg p.1 p.2) s

/-- Bytes stored from an address on. -/
def withBytes (a : Nat) (l : List Byte) (s : State) : State := { s with mem := loadedMemory a l s.mem }

/-- The pixels that are on, row by row. -/
def pixelsOn (d : Display) : List (Nat × Nat) :=
  (List.finRange 32).flatMap fun r => ((List.finRange 64).filter fun c => d.pixel r c).map fun c => (r.val, c.val)

/-- The parts of a state a fatal halt writes, with pc. -/
structure HaltView where
  sched : Sched
  armed : Bool
  cause : FaultCause
  faultPc : Word
  faultOpcode : Word
  pc : Word
  emitted : List Event
  deriving DecidableEq, Repr

def haltView (t : State) : HaltView := ⟨t.sched, t.armed, t.faultCause, t.faultPc, t.faultOpcode, t.pc, t.emitted⟩

/-- The view of a machine halted with a cause, pc and opcode. -/
def haltedView (c : FaultCause) (a op : Word) : HaltView := ⟨.halted, false, c, a, op, a, [.halted c a op]⟩

/-! ### Well-formedness: the check refuses an ill-formed term of every kind -/

theorem test_wf_refuses_cls_as_noop : (Instr.unrecognized 0x00E0#16).wf = false := by decide
theorem test_wf_refuses_class8_as_noop : (Instr.unrecognized 0x8AB6#16).wf = false := by decide
theorem test_wf_refuses_classF_as_noop : (Instr.unrecognized 0xF265#16).wf = false := by decide
theorem test_wf_accepts_noop : (Instr.unrecognized 0x5AB1#16).wf = true ∧ (Instr.unrecognized 0xB123#16).wf = true := by
  decide

/-! ### Decoding: one word of each row, its bits written out from the pattern of R66 -/

theorem test_decode_cls : decodeOpcode 0b0000000011100000#16 = .cls := by decide
theorem test_decode_ret : decodeOpcode 0b0000000011101110#16 = .ret := by decide
theorem test_decode_jp : decodeOpcode 0b0001001000000100#16 = .jp 0x204#12 := by decide
theorem test_decode_call : decodeOpcode 0b0010001000001010#16 = .call 0x20A#12 := by decide
theorem test_decode_seImm : decodeOpcode 0b0011010110100001#16 = .seImm 5#4 0xA1#8 := by decide
theorem test_decode_sneImm : decodeOpcode 0b0100001101000100#16 = .sneImm 3#4 0x44#8 := by decide
theorem test_decode_seReg : decodeOpcode 0b0101000100100000#16 = .seReg 1#4 2#4 := by decide
theorem test_decode_ldImm : decodeOpcode 0b0110101000111011#16 = .ldImm 0xA#4 0x3B#8 := by decide
theorem test_decode_addImm : decodeOpcode 0b0111000011111111#16 = .addImm 0#4 0xFF#8 := by decide
theorem test_decode_ldReg : decodeOpcode 0b1000000100100000#16 = .ldReg 1#4 2#4 := by decide
theorem test_decode_orReg : decodeOpcode 0b1000000100100001#16 = .orReg 1#4 2#4 := by decide
theorem test_decode_andReg : decodeOpcode 0b1000000100100010#16 = .andReg 1#4 2#4 := by decide
theorem test_decode_xorReg : decodeOpcode 0b1000000100100011#16 = .xorReg 1#4 2#4 := by decide
theorem test_decode_addReg : decodeOpcode 0b1000000000010100#16 = .addReg 0#4 1#4 := by decide
theorem test_decode_subReg : decodeOpcode 0b1000000000010101#16 = .subReg 0#4 1#4 := by decide
theorem test_decode_shr : decodeOpcode 0b1000000010100110#16 = .shr 0#4 0xA#4 := by decide
theorem test_decode_shl : decodeOpcode 0b1000000010101110#16 = .shl 0#4 0xA#4 := by decide
theorem test_decode_sneReg : decodeOpcode 0b1001000100100000#16 = .sneReg 1#4 2#4 := by decide
theorem test_decode_ldI : decodeOpcode 0b1010001100000001#16 = .ldI 0x301#12 := by decide
theorem test_decode_rnd : decodeOpcode 0b1100001000001111#16 = .rnd 2#4 0x0F#8 := by decide
theorem test_decode_drw : decodeOpcode 0b1101000000010010#16 = .drw 0#4 1#4 2#4 := by decide
theorem test_decode_addI : decodeOpcode 0b1111000100011110#16 = .addI 1#4 := by decide
theorem test_decode_ldF : decodeOpcode 0b1111000100101001#16 = .ldF 1#4 := by decide
theorem test_decode_ldB : decodeOpcode 0b1111000100110011#16 = .ldB 1#4 := by decide
theorem test_decode_storeRegs : decodeOpcode 0b1111001001010101#16 = .storeRegs 2#4 := by decide
theorem test_decode_loadRegs : decodeOpcode 0b1111001001100101#16 = .loadRegs 2#4 := by decide

/-- The neighbours of the rows (95_test_vectors.md 2.5): every one is outside the map. -/
theorem test_decode_unrecognized :
    ([0x0000#16, 0x0123#16, 0x00E1#16, 0x00EF#16, 0x01E0#16, 0x0FEE#16, 0x5AB1#16, 0x8AB7#16, 0x8ABD#16, 0x8ABF#16,
      0x9AB1#16, 0xB123#16, 0xE19E#16, 0xF107#16, 0xF11F#16, 0xF128#16, 0xF134#16, 0xF154#16, 0xF166#16, 0xFFFF#16].all
      fun op => decodeOpcode op == .unrecognized op) = true := by decide

/-- Fetch byte order (95_test_vectors.md 2.6), and fewer than two bytes. -/
theorem test_decode_bytes :
    decodeBytes [0x6A#8, 0x3B#8, 0x12#8] = .ok (.ldImm 0xA#4 0x3B#8, [0x12#8]) ∧
    decodeBytes [0x3B#8, 0x6A#8] = .ok (.seImm 0xB#4 0x6A#8, []) ∧ decodeBytes [0x6A#8] = .error .truncated := by
  refine ⟨rfl, rfl, rfl⟩

theorem test_decodeTableWord : decodeTableWord 16 0xD012 = some (.drw 0#4 1#4 2#4) := by decide

/-- The syntax of R71 on its own examples. -/
theorem test_assemblyText :
    assemblyText (.ldImm 0xA#4 0x3B#8) = "LD VA,0x3B" ∧ assemblyText (.call 0x20A#12) = "CALL 0x20A" ∧
    assemblyText (.drw 0#4 1#4 2#4) = "DRW V0,V1,2" ∧ assemblyText (.shr 0#4 0xA#4) = "SHR V0" := by decide

/-! ### Steps -/

/-- FL1. -/
theorem test_jp : see (fun t => (t.pc, t.stack, t.emitted)) (cycleOf 0x1ABC#16 ready) =
    some (0x0ABC#16, [], [.diag 0x1ABC#16 true]) := by decide

/-- FL4. -/
theorem test_ret : see (fun t => (t.pc, t.stack)) (cycleOf 0x00EE#16 ((ready.setPc 0x20C#16).push 0x206#16)) =
    some (0x206#16, []) := by decide

/-- FL5, scenario S4. -/
theorem test_ret_underflow : see haltView (cycleOf 0x00EE#16 (ready.setPc 600#16)) =
    some (haltedView .stackUnderflow 600#16 0x00EE#16) := by decide

/-- FL7. -/
theorem test_call : see (fun t => (t.pc, t.stack)) (cycleOf 0x220A#16 (ready.setPc 0x204#16)) =
    some (0x20A#16, [0x206#16]) := by decide

/-- FL8, with STACK_DEPTH = 2. -/
theorem test_call_overflow :
    see haltView (cycleOf 0x2300#16 { ready with stack := [0x206#16, 0x208#16], stackDepth := 2 }) =
    some (haltedView .stackOverflow 0x200#16 0x2300#16) := by decide

/-- FL11, FL12. -/
theorem test_seImm : see State.pc (cycleOf 0x3344#16 (ready.setReg 3#4 0x44#8)) = some 0x204#16 ∧
    see State.pc (cycleOf 0x3344#16 (ready.setReg 3#4 0x45#8)) = some 0x202#16 := by decide

/-- FL26: the largest pc there is. -/
theorem test_seImm_at_the_end : see State.pc (cycleOf 0x3000#16 (ready.setPc 0xFFE#16)) = some 0x1002#16 := by decide

/-- FL13, FL14. -/
theorem test_sneImm : see State.pc (cycleOf 0x4344#16 (ready.setReg 3#4 0x44#8)) = some 0x202#16 ∧
    see State.pc (cycleOf 0x4344#16 (ready.setReg 3#4 0x45#8)) = some 0x204#16 := by decide

/-- FL16, FL17. -/
theorem test_seReg : see State.pc (cycleOf 0x5120#16 (withRegs [(1#4, 9#8), (2#4, 9#8)] ready)) = some 0x204#16 ∧
    see State.pc (cycleOf 0x5120#16 (withRegs [(1#4, 9#8), (2#4, 8#8)] ready)) = some 0x202#16 := by decide

/-- FL21, FL22. -/
theorem test_sneReg : see State.pc (cycleOf 0x9120#16 (withRegs [(1#4, 9#8), (2#4, 8#8)] ready)) = some 0x204#16 ∧
    see State.pc (cycleOf 0x9120#16 (withRegs [(1#4, 9#8), (2#4, 9#8)] ready)) = some 0x202#16 := by decide

/-- Scenario S1. -/
theorem test_ldImm : see (fun t => (t.reg 0xA#4, t.pc)) (cycleOf 0x6A3B#16 ready) = some (0x3B#8, 514#16) := by decide

/-- AL4: no flag. -/
theorem test_addImm : see (fun t => (t.reg 0#4, t.reg VF)) (cycleOf 0x7001#16 (withRegs [(0#4, 0xFF#8), (VF, 1#8)] ready)) =
    some (0#8, 1#8) := by decide

/-- AL8. -/
theorem test_ldReg : see (fun t => (t.reg 1#4, t.reg 2#4)) (cycleOf 0x8120#16 (ready.setReg 2#4 0x7E#8)) =
    some (0x7E#8, 0x7E#8) := by decide

/-- AL10: VF is not touched. -/
theorem test_or :
    see (fun t => (t.reg 1#4, t.reg VF)) (cycleOf 0x8121#16 (withRegs [(1#4, 0x0F#8), (2#4, 0xF0#8), (VF, 1#8)] ready)) =
    some (0xFF#8, 1#8) := by decide

/-- AL11. -/
theorem test_and : see (fun t => t.reg 1#4) (cycleOf 0x8122#16 (withRegs [(1#4, 0x3C#8), (2#4, 0x0F#8)] ready)) =
    some 0x0C#8 := by decide

/-- AL12. -/
theorem test_xor : see (fun t => t.reg 1#4) (cycleOf 0x8123#16 (withRegs [(1#4, 0xFF#8), (2#4, 0x0F#8)] ready)) =
    some 0xF0#8 := by decide

/-- AL19: the sum uses the old VF. -/
theorem test_addReg_reads_old_vf :
    see (fun t => (t.reg 0#4, t.reg VF)) (cycleOf 0x80F4#16 (withRegs [(0#4, 0xFF#8), (VF, 1#8)] ready)) =
    some (0#8, 1#8) := by decide

/-- AL22: the result overwrites the carry. -/
theorem test_addReg_into_vf : see (fun t => t.reg VF) (cycleOf 0x8F04#16 (withRegs [(0#4, 2#8), (VF, 0xFF#8)] ready)) =
    some 1#8 := by decide

/-- AL26: equal operands give flag 0. -/
theorem test_subReg_equal :
    see (fun t => (t.reg 0#4, t.reg VF)) (cycleOf 0x8015#16 (withRegs [(0#4, 7#8), (1#4, 7#8), (VF, 1#8)] ready)) =
    some (0#8, 0#8) := by decide

/-- AL31: the subtrahend is the new flag. -/
theorem test_subReg_by_vf :
    see (fun t => (t.reg 0#4, t.reg VF)) (cycleOf 0x80F5#16 (withRegs [(0#4, 5#8), (VF, 3#8)] ready)) =
    some (4#8, 1#8) := by decide

/-- AL37: field Y is ignored. -/
theorem test_shr :
    see (fun t => (t.reg 0#4, t.reg VF, t.reg 0xA#4)) (cycleOf 0x80A6#16 (withRegs [(0#4, 5#8), (0xA#4, 0xF0#8)] ready)) =
    some (2#8, 1#8, 0xF0#8) := by decide

/-- AL39: the shift reads VF after the flag was written. -/
theorem test_shr_vf : see (fun t => t.reg VF) (cycleOf 0x8F06#16 (ready.setReg VF 3#8)) = some 0#8 := by decide

/-- AL40. -/
theorem test_shl : see (fun t => (t.reg 0#4, t.reg VF)) (cycleOf 0x800E#16 (ready.setReg 0#4 0x81#8)) =
    some (2#8, 1#8) := by decide

/-- AL44. -/
theorem test_shl_vf : see (fun t => t.reg VF) (cycleOf 0x8F0E#16 (ready.setReg VF 0x41#8)) = some 0#8 := by decide

/-- AL49, the byte the host supplies being 0xAB. -/
theorem test_rnd : (rndWith 0xAB#8 VF 0xF0#8 ready).reg VF = 0xA0#8 ∧ (rndWith 0xAB#8 VF 0xF0#8 ready).rndDraws = 1 := by
  decide

/-- AL46: whatever the byte is. -/
theorem test_rnd_mask_zero : see (fun t => t.reg 0#4) (exec (.rnd 0#4 0#8) (ready.setReg 0#4 0x55#8)) = some 0#8 := by
  simp [exec, execRnd, rndWith, see, State.reg, State.setReg, State.countDraw]

/-- ME2. -/
theorem test_ldI : see State.I (cycleOf 0xAFFF#16 ready) = some 0x0FFF#16 := by decide

/-- ME6, ME5. -/
theorem test_addI : see State.I (cycleOf 0xF01E#16 ((ready.setI 0xFFFF#16).setReg 0#4 2#8)) = some 1#16 ∧
    see (fun t => (t.I, t.reg VF)) (cycleOf 0xF01E#16 ((ready.setI 0x0FFF#16).setReg 0#4 1#8)) = some (0x1000#16, 0#8) := by
  decide

/-- ME10. -/
theorem test_ldF : see State.I (cycleOf 0xF029#16 (ready.setReg 0#4 0xFF#8)) = some 0x04FB#16 := by decide

/-- ME19: the highest legal I. -/
theorem test_ldB :
    see (fun t => (t.readByte 0xFFD, t.readByte 0xFFE, t.readByte 0xFFF))
      (cycleOf 0xF033#16 ((ready.setI 0xFFD#16).setReg 0#4 123#8)) = some (1#8, 2#8, 3#8) := by decide

/-- ME20: no partial store. -/
theorem test_ldB_range :
    see haltView (cycleOf 0xF033#16 ((ready.setI 0xFFE#16).setReg 0#4 123#8)) =
      some (haltedView .dataRange 0x200#16 0xF033#16) ∧
    see (fun t => t.readByte 0xFFE) (cycleOf 0xF033#16 ((ready.setI 0xFFE#16).setReg 0#4 123#8)) = some 0#8 := by decide

/-- ME23. -/
theorem test_storeRegs :
    see (fun t => (t.readByte 0x400, t.readByte 0x402, t.readByte 0x403, t.I))
      (cycleOf 0xF255#16 ((withRegs [(0#4, 1#8), (1#4, 2#8), (2#4, 3#8), (3#4, 4#8)] ready).setI 0x400#16)) =
    some (1#8, 3#8, 0#8, 0x400#16) := by decide

/-- ME29. -/
theorem test_storeRegs_range :
    see haltView (cycleOf 0xF155#16 ((withRegs [(0#4, 9#8), (1#4, 8#8)] ready).setI 0xFFF#16)) =
      some (haltedView .dataRange 0x200#16 0xF155#16) := by decide

/-- ME30. -/
theorem test_loadRegs :
    see (fun t => (t.reg 0#4, t.reg 2#4, t.reg 3#4, t.I))
      (cycleOf 0xF265#16 ((withBytes 0x300 [2#8, 5#8, 4#8, 7#8] ready).setI 0x300#16)) =
    some (2#8, 4#8, 0#8, 0x300#16) := by decide

/-- ME33. -/
theorem test_loadRegs_range : see haltView (cycleOf 0xFF65#16 (ready.setI 0xFF1#16)) =
    some (haltedView .dataRange 0x200#16 0xFF65#16) := by decide

/-- DV2: the refresh is owed, and handed over, although no pixel changed. -/
theorem test_cls : see (fun t => (t.emitted, t.refreshOwed)) (cycleOf 0x00E0#16 ready) =
    some ([.diag 0x00E0#16 true, .render Display.blank], false) := by decide

/-- DV4: horizontal wrap, and the last pixel collides. -/
theorem test_drw :
    see (fun t => (pixelsOn t.disp, t.reg VF))
      (cycleOf 0xD011#16 (((withBytes 0x300 [0xFF#8] ready).setI 0x300#16).setReg 0#4 60#8 |>.setPixel 0 3 true)) =
    some ([(0, 0), (0, 1), (0, 2), (0, 60), (0, 61), (0, 62), (0, 63)], 0x01#8) := by decide

/-- DV19: VF as X is read again at every bit. -/
theorem test_drw_x_vf :
    see (fun t => (pixelsOn t.disp, t.reg VF))
      (cycleOf 0xDF01#16 (((withBytes 0x300 [0xFF#8] ready).setI 0x300#16).setReg VF 10#8)) =
    some ([(0, 1), (0, 2), (0, 3), (0, 4), (0, 5), (0, 6), (0, 7), (0, 10)], 0x00#8) := by decide

/-- FL19: the diagnostic says the opcode is outside the map. -/
theorem test_unrecognized : see (fun t => (t.pc, t.emitted)) (cycleOf 0x5121#16 ready) =
    some (0x202#16, [.diag 0x5121#16 false]) := by decide

/-- FL20, and FL27: the last address an instruction can be fetched from. -/
theorem test_fetch_range :
    see haltView (step (ready.setPc 0xFFF#16)) = some (haltedView .fetchRange 0xFFF#16 0#16) ∧
    see (fun t => (t.reg 0#4, t.pc)) (cycleOf 0x6001#16 (ready.setPc 0xFFE#16)) = some (1#8, 0x1000#16) := by decide

/-- T1 and T2: a pause with either choice, and the resume. -/
theorem test_pause_resume :
    (pauseWith false ready).sched = .paused ∧ (pauseWith false ready).armed = false ∧
    (pauseWith true ready).armed = true ∧ (hostResume (pauseWith true ready)) = ready ∧
    (hostResume (pauseWith false ready)) = ready := by decide

/-- T3: a toggle before start. -/
theorem test_toggle_before_start :
    (hostStart (pauseWith true State.reset)).armed = false ∧ (hostStart (pauseWith true State.reset)).started = true ∧
    (hostResume (hostStart (pauseWith true State.reset))).armed = true := by decide

/-- The machine boots: a font byte, a two-byte program, start (70_reset_and_hazards.md R211). -/
theorem test_boot :
    see (fun t => (t.readByte 0, t.readByte 512, t.readByte 513, t.started, t.armed, t.pc))
      (stepN 5 (State.booting [0xF0#8] [0x12#8, 0x00#8])) = some (0xF0#8, 0x12#8, 0x00#8, true, true, 0x200#16) := by decide

/-- The next step runs the word `withFetchWord` placed, from reset and from a halted machine. -/
theorem test_withFetchWord :
    see (fun t => t.reg 0xA#4) (step (State.reset.withFetchWord 16 0x6A3B)) = some 0x3B#8 ∧
    see (fun t => t.reg 0xA#4) (step ({ ready with sched := .halted, pc := 0x1000#16 }.withFetchWord 16 0x6A3B)) =
      some 0x3B#8 := by decide

/-! ### Witnesses: the hypotheses of the obligations are met -/

theorem witness_DecodeOfEncodeIsIdentity :
    (Instr.drw 0xF#4 0xF#4 0xF#4).wf = true ∧ (Instr.unrecognized 0xFFFF#16).wf = true := by decide

theorem witness_EveryOpcodeHasOneMeaning :
    (Instr.drw 0#4 1#4 0xF#4).wf = true ∧ encode (.drw 0#4 1#4 0xF#4) = 0xD01F#16 := by decide

/-- Every clause's hypothesis, row by row. -/
theorem witness_DecoderFollowsTheOpcodeMap :
    (0x00E0#16 &&& 0xFFFF#16 = 0x00E0#16 ∧ 0x00EE#16 &&& 0xFFFF#16 = 0x00EE#16 ∧ 0x1FFF#16 &&& 0xF000#16 = 0x1000#16 ∧
     0x2FFF#16 &&& 0xF000#16 = 0x2000#16 ∧ 0x3FFF#16 &&& 0xF000#16 = 0x3000#16 ∧ 0x4FFF#16 &&& 0xF000#16 = 0x4000#16 ∧
     0x5FF0#16 &&& 0xF00F#16 = 0x5000#16 ∧ 0x6FFF#16 &&& 0xF000#16 = 0x6000#16 ∧ 0x7FFF#16 &&& 0xF000#16 = 0x7000#16) ∧
    (0x8FF0#16 &&& 0xF00F#16 = 0x8000#16 ∧ 0x8FF1#16 &&& 0xF00F#16 = 0x8001#16 ∧ 0x8FF2#16 &&& 0xF00F#16 = 0x8002#16 ∧
     0x8FF3#16 &&& 0xF00F#16 = 0x8003#16 ∧ 0x8FF4#16 &&& 0xF00F#16 = 0x8004#16 ∧ 0x8FF5#16 &&& 0xF00F#16 = 0x8005#16 ∧
     0x8FF6#16 &&& 0xF00F#16 = 0x8006#16 ∧ 0x8FFE#16 &&& 0xF00F#16 = 0x800E#16 ∧ 0x9FF0#16 &&& 0xF00F#16 = 0x9000#16) ∧
    (0xAFFF#16 &&& 0xF000#16 = 0xA000#16 ∧ 0xCFFF#16 &&& 0xF000#16 = 0xC000#16 ∧ 0xDFFF#16 &&& 0xF000#16 = 0xD000#16 ∧
     0xFF1E#16 &&& 0xF0FF#16 = 0xF01E#16 ∧ 0xFF29#16 &&& 0xF0FF#16 = 0xF029#16 ∧ 0xFF33#16 &&& 0xF0FF#16 = 0xF033#16 ∧
     0xFF55#16 &&& 0xF0FF#16 = 0xF055#16 ∧ 0xFF65#16 &&& 0xF0FF#16 = 0xF065#16 ∧ inMap 0xFFFF#16 = false) := by decide

/-- 0x01E0, 0x0FEE, 0x5AB1, 0x9AB1, and an opcode of none of the four masks. -/
theorem witness_LooseDecodingChangesFourMasksOnly :
    0x01E0#16 &&& 0xF0FF#16 = 0x00E0#16 ∧ 0x0FEE#16 &&& 0xF0FF#16 = 0x00EE#16 ∧ 0x5AB1#16 &&& 0xF000#16 = 0x5000#16 ∧
    0x9AB1#16 &&& 0xF000#16 = 0x9000#16 ∧
    (0x1234#16 &&& 0xF0FF#16 ≠ 0x00E0#16 ∧ 0x1234#16 &&& 0xF0FF#16 ≠ 0x00EE#16 ∧ 0x1234#16 &&& 0xF000#16 ≠ 0x5000#16 ∧
      0x1234#16 &&& 0xF000#16 ≠ 0x9000#16) := by decide

/-- A stack one below the depth, and one at it, of an instruction fetched from 0x200. -/
theorem witness_CallPushesPcOrOverflows :
    (∃ s : State, s.stack.length + 1 = s.stackDepth ∧ s.stack.length ≠ s.stackDepth) ∧
    ∃ s : State, s.stack.length = s.stackDepth ∧ s.stackDepth ≠ 0 ∧ s.pc = 0x200#16 + 2#16 :=
  ⟨⟨{ ready with stack := [0x206#16], stackDepth := 2 }, by decide⟩,
    ⟨{ ready with stack := [0x206#16, 0x208#16], stackDepth := 2, pc := 0x202#16 }, by decide⟩⟩

theorem witness_ReturnPopsPcOrUnderflows :
    (∃ s : State, s.stack = 0x206#16 :: []) ∧ ∃ s : State, s.stack = [] ∧ s.pc = 0x258#16 + 2#16 :=
  ⟨⟨{ ready with stack := [0x206#16] }, rfl⟩, ⟨{ ready with pc := 0x25A#16 }, by decide⟩⟩

theorem witness_ReturnResumesAfterCall : ∃ s t r : State, s.stack.length ≠ s.stackDepth ∧
    exec (.call 0x20A#12) s = .next t ∧ r.stack = t.stack :=
  ⟨ready, _, _, by decide, rfl, rfl⟩

/-- Both the taken and the untaken skip. -/
theorem witness_SkipsCompareAndAdvance : (ready.reg 0#4).toNat = (0#8).toNat ∧ (ready.reg 0#4).toNat ≠ (1#8).toNat := by
  decide

/-- A destination that is VF, and one that is not. -/
theorem witness_WritesRegAndFlag : VF = 0xF#4 ∧ 0#4 ≠ VF := by decide

theorem witness_RandomByteIsMasked : ∃ t, exec (.rnd 0#4 0x0F#8) ready = .next t ∧ (0x0F#8).getLsbD 4 = false :=
  ⟨_, rfl, by decide⟩

/-- I at the last legal address and one above it. -/
theorem witness_BcdStoresThreeDigits :
    (ready.setI 4093#16).I.toNat + 2 ≤ 4095 ∧
    ((ready.setI 4094#16).setPc 0x202#16).I.toNat + 2 > 4095 ∧
    ((ready.setI 4094#16).setPc 0x202#16).pc = 0x200#16 + 2#16 := by decide

theorem witness_StoreRegistersAtIndex :
    (ready.setI 4080#16).I.toNat + (0xF#4).toNat ≤ 4095 ∧
    ((ready.setI 4081#16).setPc 0x202#16).I.toNat + (0xF#4).toNat > 4095 ∧
    ((ready.setI 4081#16).setPc 0x202#16).pc = 0x200#16 + 2#16 := by decide

theorem witness_LoadRegistersFromIndex :
    (ready.setI 4095#16).I.toNat + (0#4).toNat ≤ 4095 ∧
    ((ready.setI 4096#16).setPc 0x202#16).I.toNat + (0#4).toNat > 4095 ∧
    ((ready.setI 4096#16).setPc 0x202#16).pc = 0x200#16 + 2#16 := by decide

/-- The hypothesis, with the boundary values of the four conditions on either side. -/
theorem witness_DataRangeHaltsExactly :
    ((ready.setI 4095#16).setPc 0x202#16).pc = 0x200#16 + 2#16 ∧
    ¬ (ready.setI 4095#16).I.toNat + (1#4).toNat - 1 > 4095 ∧ (ready.setI 4095#16).I.toNat + (2#4).toNat - 1 > 4095 ∧
    ¬ (ready.setI 4093#16).I.toNat + 2 > 4095 ∧ (ready.setI 4094#16).I.toNat + 2 > 4095 ∧
    ¬ (ready.setI 4080#16).I.toNat + (0xF#4).toNat > 4095 ∧ (ready.setI 4081#16).I.toNat + (0xF#4).toNat > 4095 := by decide

theorem witness_FetchSeesStoredBytes : ∃ s t u : State, s.I.toNat + (1#4).toNat ≤ 4095 ∧ (1#4).toNat = (0#4).toNat + 1 ∧
    (1#4).toNat ≤ (1#4).toNat ∧ exec (.storeRegs 1#4) s = .next t ∧ u.mem = t.mem ∧ u.pc.toNat = s.I.toNat + (0#4).toNat :=
  ⟨ready.setI 4094#16, _, { (storeReg (storeReg (ready.setI 4094#16) 0) 1) with pc := 4094#16 }, by decide, by decide,
    by decide, rfl, rfl, by decide⟩

/-- N = 0 with any I, the last sprite byte at 4095, and at 4096; and a picture of the state. -/
theorem witness_DrawRunsTheAlgorithm :
    ((0#4).toNat = 0 ∧ (ready.setI 4095#16).I.toNat + (1#4).toNat - 1 ≤ 4095) ∧
    (1 ≤ (2#4).toNat ∧ (ready.setI 4095#16).I.toNat + (2#4).toNat - 1 > 4095 ∧
      (ready.setPc 0x202#16).pc = 0x200#16 + 2#16) ∧
    ∃ p : Picture, p.vf = (ready.reg VF).toNat ∧ ∀ (r : Fin 32) (c : Fin 64), p.on r.val c.val = ready.disp.pixel r c :=
  ⟨by decide, by decide, ⟨0, fun _ _ => false⟩, by decide, fun r c => (Display.pixel_blank r c).symm⟩

/-- A sprite byte with a set bit on pixel (0, 0), and a pixel (1, 0) no bit lies on. -/
theorem witness_DrawXorsTheSpriteWrapped :
    let s := (withBytes 0x300 [0x80#8] ready).setI 0x300#16
    (0#4 ≠ VF ∧ s.I.toNat + (1#4).toNat - 1 ≤ 4095) ∧
    (0 < (1#4).toNat ∧ (0 : Nat) < 8 ∧ ((s.reg 0#4).toNat + 0) % 32 = 0 ∧ ((s.reg 0#4).toNat + 0) % 64 = 0 ∧
      (s.readByte (s.I.toNat + 0)).getLsbD (7 - 0) = true) ∧
    ∀ k, k < (1#4).toNat → ((s.reg 0#4).toNat + k) % 32 ≠ 1 := by decide

/-- The last pixel collides, and does not. -/
theorem witness_CollisionFlagIsTheLastPixels :
    let s := ((withBytes 0x300 [0x01#8] ready).setI 0x300#16).setPixel 0 7 true
    (0#4 ≠ VF ∧ 1 ≤ (1#4).toNat ∧ s.I.toNat + (1#4).toNat - 1 ≤ 4095) ∧
    ((7 : Fin 64).val = ((s.reg 0#4).toNat + 7) % 64 ∧ (0 : Fin 32).val = ((s.reg 0#4).toNat + (1#4).toNat - 1) % 32 ∧
      (s.readByte (s.I.toNat + (1#4).toNat - 1)).toNat % 2 = 1 ∧ s.disp.pixel 0 7 = true) ∧
    ¬ (((s.setPixel 0 7 false).readByte (s.I.toNat + (1#4).toNat - 1)).toNat % 2 = 1 ∧
      (s.setPixel 0 7 false).disp.pixel 0 7 = true) := by decide

/-- After the first draw its own result, but for the flag, meets the inner hypotheses. -/
theorem witness_DrawingTwiceRestoresTheBuffer : ∃ s t s' : State, 0#4 ≠ VF ∧ 1#4 ≠ VF ∧ s.I.toNat + (1#4).toNat - 1 ≤ 4095 ∧
    exec (.drw 0#4 1#4 1#4) s = .next t ∧ s'.disp = t.disp ∧ s'.I = s.I ∧ s'.reg 0#4 = s.reg 0#4 ∧
    s'.reg 1#4 = s.reg 1#4 ∧ ∀ k, k < (1#4).toNat → s'.readByte (s.I.toNat + k) = s.readByte (s.I.toNat + k) := by
  refine ⟨ready, (drawSprite 0#4 1#4 1 ready).markRefresh, (drawSprite 0#4 1#4 1 ready).markRefresh, by decide, by decide,
    by decide, rfl, rfl, ?_, ?_, ?_, ?_⟩
  · exact drawSprite_I ..
  · exact drawSprite_reg _ _ (by decide)
  · exact drawSprite_reg _ _ (by decide)
  · exact fun k _ => drawSprite_readByte ..

theorem witness_UnrecognizedOpcodeIsNoOp :
    ready.hostActions = [] ∧ ready.cycleEnabled = true ∧ ready.refreshOwed = false ∧ ready.fetchWord = some 0x0000#16 ∧
    inMap 0x0000#16 = false := by decide

theorem witness_RegistersChangeOnlyAsDestinations : ∃ t, exec (.addReg 0#4 1#4) ready = .next t ∧
    mayWriteReg (.addReg 0#4 1#4) 1#4 = false :=
  ⟨_, rfl, by decide⟩

/-- A completed instruction that may write nothing of the four, and one that halts. -/
theorem witness_InstructionsWriteOnlyTheirState :
    (∃ t, exec (.ldImm 0#4 1#8) ready = .next t ∧ mayWriteIndex (.ldImm 0#4 1#8) = false ∧
      mayWriteStack (.ldImm 0#4 1#8) = false ∧ mayWriteMemory (.ldImm 0#4 1#8) = false ∧
      drawsDisplay (.ldImm 0#4 1#8) = false ∧ t.sched ≠ .halted) ∧
    ∃ t, exec .ret ready = .next t ∧ t.sched = .halted ∧ ready.sched ≠ .halted :=
  ⟨⟨_, rfl, by decide, by decide, by decide, by decide, by decide⟩, ⟨_, rfl, by decide, by decide⟩⟩

theorem witness_RefreshOwedExactlyByDrawing :
    ∃ t, exec .cls ready = .next t ∧ ready.sched ≠ .halted ∧ ready.refreshOwed = false :=
  ⟨_, rfl, by decide, by decide⟩

/-- The core's turn by an empty list, and by a tick. -/
theorem witness_coreTurn : ready.coreTurn ∧ State.coreTurn { ready with hostActions := [.tick, .toggle] } :=
  ⟨.inl rfl, .inr rfl⟩

theorem witness_StepRunsTheDecodedInstruction :
    let s := put 4094 0x6A3B#16 (ready.setPc 4094#16)
    s.hostActions = [] ∧ s.cycleEnabled = true ∧ s.pc.toNat ≤ 4094 ∧
    decodeBytes [s.readByte s.pc.toNat, s.readByte (s.pc.toNat + 1)] = .ok (.ldImm 0xA#4 0x3B#8, []) :=
  ⟨rfl, by decide, by decide, rfl⟩

/-- A cycle that completes, and one that halts. -/
theorem witness_CycleEmitsAndReschedules :
    (ready.cycleEnabled = true ∧ ready.refreshOwed = false ∧ ready.fetchWord = some 0#16 ∧
      see (fun t => decide (t.sched ≠ .halted)) (step ready) = some true) ∧
    ((put 512 0x00EE#16 ready).cycleEnabled = true ∧ (put 512 0x00EE#16 ready).fetchWord = some 0x00EE#16 ∧
      see State.sched (step (put 512 0x00EE#16 ready)) = some .halted) := by decide

/-- pc = 4095, the first out of range, and a cycle at 4094 that halts (for another cause). -/
theorem witness_FetchBeyondMemoryHalts :
    (ready.setPc 4095#16).cycleEnabled = true ∧ (ready.setPc 4095#16).pc.toNat > 4094 ∧
    (put 4094 0x00EE#16 (ready.setPc 4094#16)).pc.toNat ≤ 4094 ∧
    see State.sched (step (put 4094 0x00EE#16 (ready.setPc 4094#16))) = some .halted := by decide

theorem witness_FatalHaltIsPrecise :
    (ready.setPc 4095#16).sched ≠ .halted ∧ see State.sched (step (ready.setPc 4095#16)) = some .halted := by decide

/-- A machine halted by a return on an empty stack. -/
def haltedMachine : State :=
  { ready with sched := .halted, armed := false, faultCause := .stackUnderflow, faultPc := 0x200#16,
               faultOpcode := 0x00EE#16 }

/-- A started machine about to run its first cycle meets the invariant. -/
theorem inv_ready : Inv ready :=
  ⟨rfl, by decide, by decide, fun _ h => (by cases h), rfl, by decide, by decide, by decide, by decide, by decide⟩

theorem inv_haltedMachine : Inv haltedMachine :=
  ⟨rfl, by decide, by decide, fun _ h => (by cases h), rfl, by decide, by decide, by decide, by decide, by decide⟩

/-- The invariant takes no account of the host's list. -/
theorem witness_HaltedIsLeftOnlyByReset :
    (Inv haltedMachine ∧ haltedMachine.sched = .halted ∧ haltedMachine.hostActions.head? ≠ some .reset) ∧
    ∃ s : State, Inv s ∧ s.sched = .halted ∧ s.hostActions.head? = some .reset :=
  ⟨⟨inv_haltedMachine, rfl, by decide⟩,
    ⟨{ haltedMachine with hostActions := [.reset] }, ⟨rfl, by decide, by decide, fun _ h => (by cases h), rfl, by decide, by decide, by decide, by decide, by decide⟩, rfl, rfl⟩⟩

theorem witness_CoreIsIdleUnlessArmed : State.reset.hostActions = [] ∧ State.reset.armed = false := by decide

theorem witness_JumpToItselfSpins :
    let s := put 512 0x1200#16 ready
    s.hostActions = [] ∧ s.armed = true ∧ s.sched = .running ∧ s.refreshOwed = false ∧ s.fetchWord = some 0x1200#16 ∧
    (0x1200#16).toNat = 0x1000 + s.pc.toNat := by decide

theorem witness_ResetEventRestoresTheResetState :
    ∃ s : State, s.hostActions = .reset :: [.start] ∧ s.sched = .halted :=
  ⟨{ haltedMachine with hostActions := [.reset, .start] }, rfl, rfl⟩

/-- The last address, the first beyond, and a machine already started. -/
theorem witness_LoadPortWritesOnlyBeforeStart :
    (∃ s : State, s.hostActions = .load 4095 7#8 :: [] ∧ s.started = false ∧ 4095 ≤ 4095) ∧
    (∃ s : State, s.hostActions = .load 4096 7#8 :: [] ∧ 4096 > 4095) ∧
    ∃ s : State, s.hostActions = .load 0 7#8 :: [] ∧ s.started = true :=
  ⟨⟨{ State.reset with hostActions := [.load 4095 7#8] }, rfl, rfl, by decide⟩,
    ⟨{ State.reset with hostActions := [.load 4096 7#8] }, rfl, by decide⟩,
    ⟨{ ready with hostActions := [.load 0 7#8] }, rfl, rfl⟩⟩

theorem witness_StartArmsTheFirstCycle :
    (∃ s : State, s.hostActions = .start :: [] ∧ s.started = false) ∧
    ∃ s : State, s.hostActions = .start :: [] ∧ s.started = true :=
  ⟨⟨{ State.reset with hostActions := [.start] }, rfl, rfl⟩, ⟨{ ready with hostActions := [.start] }, rfl, rfl⟩⟩

theorem witness_TogglePausesAndResumes :
    (∃ s : State, s.hostActions = .toggle :: [] ∧ s.sched = .running) ∧
    (∃ s : State, s.hostActions = .toggle :: [] ∧ s.sched = .paused ∧ s.started = true) ∧
    (∃ s : State, s.hostActions = .toggle :: [] ∧ s.sched = .paused ∧ s.started = false) ∧
    ∃ s : State, s.hostActions = .toggle :: [] ∧ s.sched = .halted :=
  ⟨⟨{ ready with hostActions := [.toggle] }, rfl, rfl⟩, ⟨{ ready with hostActions := [.toggle], sched := .paused }, rfl, rfl, rfl⟩,
    ⟨{ State.reset with hostActions := [.toggle], sched := .paused }, rfl, rfl, rfl⟩,
    ⟨{ haltedMachine with hostActions := [.toggle] }, rfl, rfl⟩⟩

/-- Paused with the extra cycle still armed. -/
theorem witness_PausedMachineRunsAtMostOneMoreCycle :
    (pauseWith true ready).sched = .paused ∧ (pauseWith true ready).hostActions = [] ∧ (pauseWith true ready).armed = true := by
  decide

/-- The largest font and the largest program. -/
theorem witness_BootLoadsFontAndProgram :
    imageSizesOk (List.replicate 512 1#8) (List.replicate 3584 1#8) = true ∧
    ∃ s : State, s.hostActions = bootActions (List.replicate 512 1#8) (List.replicate 3584 1#8) :=
  ⟨by rw [imageSizesOk, List.length_replicate, List.length_replicate]; decide, ⟨State.booting _ _, rfl⟩⟩

theorem witness_NoStepChangesTheStackDepth : ∃ t, step ready = .next t := ⟨_, rfl⟩

theorem witness_EveryStepKeepsTheInvariant : ∃ t, Inv ready ∧ step ready = .next t := ⟨_, inv_ready, rfl⟩

/-- The per-instruction family's statement is about instructions that exist. -/
theorem witness_EncodesInMap : inMap (encode (.shr 0#4 0xA#4)) = true ∧ inMap (encode (.unrecognized 0xB123#16)) = false := by
  decide

end Sys2Proof.Tests
end

section
/-! PROOFS of the scope family (00_scope.md R4): STACK_DEPTH is a parameter. Each operation a step is made of keeps the
field that holds it; a step is the core's turn or one host event, so a step keeps it too. -/

namespace Sys2Proof.Machine

/-! ### The host's events keep the parameter -/

@[simp] theorem State.hostReset_stackDepth (s : State) : s.hostReset.stackDepth = s.stackDepth := rfl

@[simp] theorem hostLoad_stackDepth (addr : Nat) (b : Byte) (s : State) :
    (hostLoad addr b s).stackDepth = s.stackDepth := by
  unfold hostLoad
  split
  · rfl
  · split <;> rfl

@[simp] theorem hostStart_stackDepth (s : State) : (hostStart s).stackDepth = s.stackDepth := by
  unfold hostStart
  split <;> rfl

@[simp] theorem hostToggle_stackDepth (s : State) : (hostToggle s).stackDepth = s.stackDepth := by
  unfold hostToggle
  split <;> rfl

/-! ### The core's turn keeps the parameter -/

@[simp] theorem finishCycle_stackDepth (op : Word) (i : Instr) (s : State) :
    (finishCycle op i s).stackDepth = s.stackDepth := by
  rw [finishCycle_eq]

/-- A halt entry keeps it, and a completed instruction keeps it with the rest of the control state. -/
theorem cycle_stackDepth {s t : State} (h : cycle s = .next t) : t.stackDepth = s.stackDepth := by
  rcases cycle_cases s with ⟨_, hc⟩ | ⟨op, _, ⟨c, _, _, _, hc⟩ | ⟨u, _, hu, hc⟩⟩ <;>
    obtain rfl := Host.Outcome.next.inj (h.symm.trans hc)
  case inl | inr.inl => exact State.haltEntry_stackDepth ..
  case inr.inr =>
    calc (finishCycle op (decodeOpcode op) u).stackDepth
        = u.stackDepth := finishCycle_stackDepth ..
      _ = s.advancePc.stackDepth := hu.control.stackDepth
      _ = s.stackDepth := State.advancePc_stackDepth s

theorem coreStep_stackDepth {s t : State} (h : coreStep s = .next t) : t.stackDepth = s.stackDepth := by
  cases he : s.cycleEnabled with
  | true => exact cycle_stackDepth (coreStep_enabled he ▸ h)
  | false =>
    obtain rfl := Host.Outcome.next.inj ((coreStep_idle he).symm.trans h)
    rfl

/-! ### A step is one of these -/

theorem takeAction_stackDepth {a : HostAction} {s t : State} (h : takeAction a s = .next t) :
    t.stackDepth = s.stackDepth := by
  cases a with
  | tick => exact coreStep_stackDepth h
  | reset => cases h; exact State.hostReset_stackDepth s
  | load addr b => cases h; exact hostLoad_stackDepth addr b s
  | start => cases h; exact hostStart_stackDepth s
  | toggle => cases h; exact hostToggle_stackDepth s

/-- Settles O52, by the host's next action: none pending is the core's turn, else the action is taken. -/
theorem noStepChangesTheStackDepth : Obligations.NoStepChangesTheStackDepth := by
  intro s t h
  cases ha : s.hostActions with
  | nil => exact coreStep_stackDepth (s := s.begin) (step_coreTurn (.inl ha) ▸ h)
  | cons a rest => exact takeAction_stackDepth (s := s.begin) (step_cons ha ▸ h)

end Sys2Proof.Machine
end

section
/-! PROOFS of the state family (10_state.md R24 to R26): the reset values, the invariant at reset and through every step,
and which instructions write which part of the state. -/

namespace Sys2Proof.Machine

/-! ### Reset (R24, R25) -/

/-- Settles O45: each piece of state by the value it is built from, the array and list reads by their laws. -/
theorem resetHoldsTheResetValues : Obligations.ResetHoldsTheResetValues where
  regs k := by simp [State.reg, State.reset]
  index := rfl
  pc := rfl
  stack := rfl
  memory := Memory.read_nil
  display := Display.pixel_blank
  refresh := rfl
  sched := rfl
  armed := rfl
  started := rfl
  faultCause := rfl
  faultPc := rfl
  faultOpcode := rfl

/-- Settles O53: an empty stack and Memory, no fault, and a scheduler that is Running and not armed. -/
theorem invariantHoldsAtReset : Obligations.InvariantHoldsAtReset where
  memory := rfl
  pc := by decide
  depth := Nat.zero_le _
  entries _ hw := absurd hw List.not_mem_nil
  refresh := rfl
  fault := by decide
  record _ := ⟨rfl, rfl⟩
  haltedNotArmed _ := rfl
  haltedStarted := nofun
  notStarted _ := rfl

/-! ### The invariant along the parts of a cycle (R25) -/

section
variable {s t : State}

/-- The invariant does not speak of the output port or the host's list. -/
theorem begin_inv (h : Inv s) : Inv s.begin := { h with }

theorem Inv.started_of_armed (h : Inv s) (ha : s.armed = true) : s.started = true := by
  by_contra hs
  exact absurd ha (by simp [h.notStarted (Bool.eq_false_of_not_eq_true hs)])

theorem Inv.faultCause_eq_none (h : Inv s) (hs : s.sched ≠ .halted) : s.faultCause = .none :=
  not_not.1 (mt h.fault.1 hs)

/-- The halt entry of a started machine: it writes a cause with Halted and disarms the machine. -/
theorem haltEntry_inv {c : FaultCause} (a op : Word) (h : Inv s) (hc : c ≠ .none) (hs : s.started = true) :
    Inv (s.haltEntry c a op) :=
  { h with
    fault := ⟨fun _ => rfl, fun _ => hc⟩
    record := fun e => absurd e hc
    haltedNotArmed := fun _ => rfl
    haltedStarted := fun _ => hs
    notStarted := fun _ => rfl }

/-- The fetch advance from an address in Memory does not wrap. -/
theorem advancePc_toNat (hf : s.pc.toNat + 1 < 4096) : s.advancePc.pc.toNat = s.pc.toNat + 2 := by
  rw [State.advancePc_pc, BitVec.toNat_add, BitVec.toNat_ofNat]
  omega

section
variable {i : Instr} (h : Inv s) (ht : Completes i s.advancePc t)
include h ht

/-- A push happens below STACK_DEPTH only. -/
theorem Completes.depth_le : t.stack.length ≤ t.stackDepth := by
  have hd : s.stack.length ≤ s.stackDepth := h.depth
  rw [ht.control.stackDepth, State.advancePc_stackDepth]
  rcases ht.stack with e | e | ⟨e, hne⟩
  · rw [e]; exact hd
  · rw [e, List.length_tail, State.advancePc_stack]; omega
  · rw [State.advancePc_stack, State.advancePc_stackDepth] at hne
    rw [e, List.length_cons, State.advancePc_stack]; omega

variable (hf : s.pc.toNat + 1 < 4096)
include hf

/-- The largest pc is that of a skip fetched from the last two bytes. -/
theorem Completes.pc_le : t.pc.toNat ≤ 4098 := by
  have ha := advancePc_toNat hf
  rcases ht.pc with e | e | hle | hmem
  · rw [e]; omega
  · rw [e, BitVec.toNat_add, BitVec.toNat_ofNat]; omega
  · omega
  · have := h.entries _ hmem; omega

/-- What is pushed is the advanced pc. -/
theorem Completes.entries_bounded : ∀ w ∈ t.stack, 2 ≤ w.toNat ∧ w.toNat ≤ 4096 := by
  intro w hw
  rcases ht.stack with e | e | ⟨e, -⟩ <;> rw [e] at hw
  · exact h.entries w hw
  · exact h.entries w (List.mem_of_mem_tail hw)
  · rcases List.mem_cons.1 hw with rfl | hw
    · rw [advancePc_toNat hf]; omega
    · exact h.entries w hw

end

/-- A cycle whose instruction completes: its end owes no refresh and arms only a Running machine. -/
theorem finishCycle_inv {op : Word} {i : Instr} (h : Inv s) (hf : s.pc.toNat + 1 < 4096)
    (hs : s.started = true) (hr : s.sched ≠ .halted) (ht : Completes i s.advancePc t) : Inv (finishCycle op i t) := by
  obtain ⟨csched, -, cstarted, ccause, cpc, copcode, -⟩ := ht.control
  have hcause : t.faultCause = .none := ccause.trans (h.faultCause_eq_none hr)
  have htr : t.sched ≠ .halted := fun e => hr (csched.symm.trans e)
  have hts : t.started = true := cstarted.trans hs
  have hrefresh := finishCycle_refreshOwed (op := op) (i := i) htr
  have hpc := ht.pc_le h hf
  have hdepth := ht.depth_le h
  have hentries := ht.entries_bounded h hf
  rw [finishCycle_eq] at hrefresh ⊢
  exact
    { memory := ht.memory h.memory
      pc := hpc
      depth := hdepth
      entries := hentries
      refresh := hrefresh
      fault := ⟨fun e => absurd hcause e, fun e => absurd e htr⟩
      record := fun _ => (h.record (h.faultCause_eq_none hr)).imp cpc.trans copcode.trans
      haltedNotArmed := fun e => absurd e htr
      haltedStarted := fun _ => hts
      notStarted := fun e => absurd (hts.symm.trans e) Bool.noConfusion }

/-- An enabled cycle halts at the fetch, halts in the instruction, or completes it. -/
theorem cycle_inv (h : Inv s) (he : s.cycleEnabled = true) (hc : cycle s = .next t) : Inv t := by
  obtain ⟨harmed, hr⟩ := s.cycleEnabled_iff.1 he
  have hs := h.started_of_armed harmed
  rcases cycle_cases s with ⟨-, e⟩ | ⟨op, hf, ⟨c, hne, -, -, e⟩ | ⟨u, -, hu, e⟩⟩ <;>
    obtain rfl := Host.Outcome.next.inj (hc.symm.trans e)
  · exact haltEntry_inv _ _ h nofun hs
  · exact haltEntry_inv _ _ h hne hs
  · exact finishCycle_inv h (State.pc_of_fetchWord hf) hs hr hu

theorem coreStep_inv (h : Inv s) (hc : coreStep s = .next t) : Inv t := by
  cases he : s.cycleEnabled with
  | true => exact cycle_inv h he (coreStep_enabled he ▸ hc)
  | false =>
    obtain rfl := Host.Outcome.next.inj ((coreStep_idle he).symm.trans hc)
    exact h

/-! ### The invariant along the host's events (R25) -/

theorem hostReset_inv (s : State) : Inv s.hostReset := { invariantHoldsAtReset with depth := Nat.zero_le _ }

theorem hostLoad_inv (addr : Nat) (b : Byte) (h : Inv s) : Inv (hostLoad addr b s) := by
  unfold hostLoad
  split
  · exact h
  · split
    · exact { h with memory := Memory.wf_write addr b h.memory }
    · exact h

/-- Start arms a Running machine only. -/
theorem hostStart_inv (h : Inv s) : Inv (hostStart s) := by
  unfold hostStart
  split
  · exact h
  · exact
      { h with
        haltedNotArmed := fun e => decide_eq_false fun hr => Sched.noConfusion (hr.symm.trans e)
        haltedStarted := fun _ => rfl
        notStarted := nofun }

/-- The toggle of a machine that has no fault leaves it Running or Paused; it arms a started machine only. -/
theorem hostToggle_inv (h : Inv s) : Inv (hostToggle s) := by
  unfold hostToggle
  split
  next hs =>
    have hcause := h.faultCause_eq_none (by simp [hs])
    exact
      { h with
        fault := ⟨fun e => absurd hcause e, nofun⟩
        haltedNotArmed := nofun
        haltedStarted := nofun
        notStarted := fun e => by simp [hostPause, pauseWith, h.notStarted e] }
  next hs =>
    have hcause := h.faultCause_eq_none (by simp [hs])
    exact
      { h with
        fault := ⟨fun e => absurd hcause e, nofun⟩
        haltedNotArmed := nofun
        haltedStarted := nofun
        notStarted := fun (e : s.started = false) => by simp [hostResume, e, h.notStarted e] }
  next => exact h

theorem takeAction_inv {a : HostAction} (h : Inv s) (ha : takeAction a s = .next t) : Inv t := by
  cases a with
  | tick => exact coreStep_inv h ha
  | reset => cases ha; exact hostReset_inv s
  | load addr b => cases ha; exact hostLoad_inv addr b h
  | start => cases ha; exact hostStart_inv h
  | toggle => cases ha; exact hostToggle_inv h

end

/-- Settles O54, by the host's next action: none pending is the core's turn, else the action is taken. -/
theorem everyStepKeepsTheInvariant : Obligations.EveryStepKeepsTheInvariant := by
  intro s t h ht
  cases ha : s.hostActions with
  | nil => exact coreStep_inv (begin_inv h) (step_coreTurn (.inl ha) ▸ ht)
  | cons a rest => exact takeAction_inv (begin_inv h) (step_cons ha ▸ ht)

/-! ### Who writes what (R26) -/

/-- Of I, the call stack, Memory and the display, `i` has changed at most those it is listed for. -/
structure WritesOnlyListed (i : Instr) (s t : State) : Prop where
  index : mayWriteIndex i = false → t.I = s.I
  stack : mayWriteStack i = false → t.stack = s.stack
  memory : mayWriteMemory i = false → t.mem = s.mem
  display : drawsDisplay i = false → t.disp = s.disp

section
variable {i : Instr} {s t : State}

/-- The register instructions and the jumps and skips write nothing R26 restricts. -/
theorem WritesOnlyListed.of_regs_pc (h : t = { s with V := t.V, pc := t.pc, rndDraws := t.rndDraws }) :
    WritesOnlyListed i s t := by
  rw [h]
  exact ⟨fun _ => rfl, fun _ => rfl, fun _ => rfl, fun _ => rfl⟩

theorem WritesOnlyListed.of_skip (c : Bool) : WritesOnlyListed i s (skipIf c s) := by
  rw [skipIf_eq]
  exact .of_regs_pc rfl

theorem WritesOnlyListed.of_raiseHalt {c : FaultCause} {j : Instr} (h : raiseHalt c j s = .next t) :
    WritesOnlyListed i s t := by
  cases h
  exact ⟨fun _ => rfl, fun _ => rfl, fun _ => rfl, fun _ => rfl⟩

/-- Every instruction, halting or completing. -/
theorem exec_writesOnlyListed (h : exec i s = .next t) : WritesOnlyListed i s t := by
  cases i
  case cls => cases h; exact ⟨fun _ => rfl, fun _ => rfl, fun _ => rfl, nofun⟩
  case drw x y n =>
    simp only [exec, execDrw] at h
    split at h
    · exact .of_raiseHalt h
    · cases h
      rw [drawSprite_eq]
      exact ⟨fun _ => rfl, fun _ => rfl, fun _ => rfl, nofun⟩
  case ret =>
    simp only [exec, execRet] at h
    split at h
    · exact .of_raiseHalt h
    · cases h; exact ⟨fun _ => rfl, nofun, fun _ => rfl, fun _ => rfl⟩
  case call nnn =>
    simp only [exec, execCall] at h
    split at h
    · exact .of_raiseHalt h
    · cases h; exact ⟨fun _ => rfl, nofun, fun _ => rfl, fun _ => rfl⟩
  case ldB x =>
    simp only [exec, execLdB] at h
    split at h
    · exact .of_raiseHalt h
    · cases h; exact ⟨fun _ => rfl, fun _ => rfl, nofun, fun _ => rfl⟩
  case storeRegs x =>
    simp only [exec, execStoreRegs] at h
    split at h
    · exact .of_raiseHalt h
    · cases h
      rw [storeLoop_eq]
      exact ⟨fun _ => rfl, fun _ => rfl, nofun, fun _ => rfl⟩
  case loadRegs x =>
    simp only [exec, execLoadRegs] at h
    split at h
    · exact .of_raiseHalt h
    · cases h
      rw [loadLoop_eq]
      exact .of_regs_pc rfl
  case ldI | addI | ldF => cases h; exact ⟨nofun, fun _ => rfl, fun _ => rfl, fun _ => rfl⟩
  case seImm | sneImm | seReg | sneReg => cases h; exact .of_skip _
  all_goals cases h; exact .of_regs_pc rfl

end

/-- Settles O36: a halt writes the fault record with its cause, and a completed instruction keeps the control state;
either way the rest is what the instruction is listed for. -/
theorem instructionsWriteOnlyTheirState : Obligations.InstructionsWriteOnlyTheirState := by
  intro i s t h
  obtain ⟨hI, hstack, hmem, hdisp⟩ := exec_writesOnlyListed h
  rcases exec_cases i s with ⟨c, hc, -, he⟩ | ⟨u, he, hu⟩
  · cases (raiseHalt_def c i s ▸ he).symm.trans h
    exact ⟨hI, hstack, hmem, fun hd => ⟨hdisp hd, rfl⟩, rfl, rfl, rfl, rfl, fun hr => absurd rfl hr, fun _ _ => hc⟩
  · obtain rfl := Host.Outcome.next.inj (h.symm.trans he)
    have ctl := hu.control
    exact ⟨hI, hstack, hmem, fun hd => ⟨hdisp hd, by simp [hu.refresh, hd]⟩, ctl.started, ctl.stackDepth,
      ctl.pauseDraws, ctl.hostActions, fun _ => ctl, fun ht hs => absurd (ctl.sched.symm.trans ht) hs⟩

end Sys2Proof.Machine
end

section
/-! PROOFS of the memory family (20_memory.md R53, R54): a fetch sees the bytes LD [I],Vx stored, and the load port. -/

namespace Sys2Proof.Machine

/-! ### The bytes LD [I],Vx stores, and the word a fetch makes of two bytes (R42, R53) -/

theorem exec_storeRegs_of_inRange {x : RegIdx} {s : State} (h : s.I.toNat + x.toNat ≤ 4095) :
    exec (.storeRegs x) s = .next ((List.range (x.toNat + 1)).foldl storeReg s) := by
  have hr : s.dataRangeFaults (x.toNat + 1) = false := State.dataRangeFaults_eq_false (by omega)
  simp [exec, execStoreRegs, hr]

/-- The address of a stored register reads as that register. -/
theorem storeLoop_readByte_reg {s : State} {n : Nat} {k : RegIdx} (h : s.I.toNat + n ≤ 4096) (hk : k.toNat < n) :
    ((List.range n).foldl storeReg s).readByte (s.I.toNat + k.toNat) = s.reg k := by
  rw [storeLoop_readByte h, if_pos (by omega), Nat.add_sub_cancel_left, regNumber_of_toNat]

theorem State.readByte_eq_of_mem_eq {s t : State} (h : s.mem = t.mem) (a : Nat) : s.readByte a = t.readByte a :=
  congrArg (Memory.read · a) h

/-- The fetch as a number: the byte at pc is the more significant one (R42). -/
theorem State.fetchWord_toNat {s : State} (h : s.pc.toNat + 1 < 4096) :
    ∃ op : Word, s.fetchWord = some op ∧
      op.toNat = (s.readByte s.pc.toNat).toNat * 256 + (s.readByte (s.pc.toNat + 1)).toNat :=
  ⟨_, State.fetchWord_some h, wordOfBytes_toNat ..⟩

/-- Settles O26: the fetched bytes are those at I + k and I + l, and the store loop put V[k] and V[l] there. -/
theorem fetchSeesStoredBytes : Obligations.FetchSeesStoredBytes := by
  intro x k l s hx hl hlx
  refine ⟨_, exec_storeRegs_of_inRange hx, fun u hmem hpc => ?_⟩
  have hhigh : u.readByte u.pc.toNat = s.reg k := by
    rw [State.readByte_eq_of_mem_eq hmem, hpc, storeLoop_readByte_reg (by omega) (by omega)]
  have hlow : u.readByte (u.pc.toNat + 1) = s.reg l := by
    rw [State.readByte_eq_of_mem_eq hmem, show u.pc.toNat + 1 = s.I.toNat + l.toNat by omega,
      storeLoop_readByte_reg (by omega) (by omega)]
  have hfetch := State.fetchWord_toNat (s := u) (by omega)
  rwa [hhigh, hlow] at hfetch

/-! ### The load port (R54) -/

theorem State.begin_of_cons {s : State} {a : HostAction} {rest : List HostAction} (h : s.hostActions = a :: rest) :
    s.begin = { s with hostActions := rest, emitted := [] } := by
  simp [State.begin, State.dropAction, State.clearEmitted, h]

theorem step_load {s : State} {addr : Nat} {b : Byte} {rest : List HostAction}
    (h : s.hostActions = .load addr b :: rest) :
    step s = .next (hostLoad addr b { s with hostActions := rest, emitted := [] }) := by
  rw [step_cons h, State.begin_of_cons h, takeAction]

/-- The port is closed once started, and beyond Memory. -/
theorem hostLoad_closed {s : State} {addr : Nat} (b : Byte) (h : s.started = true ∨ addr > 4095) :
    hostLoad addr b s = s := by
  unfold hostLoad
  split
  · rfl
  next hs => exact if_neg (Nat.not_lt.2 (h.resolve_left hs))

/-- Settles O47: an open port is one write to Memory, a closed one leaves the state as it is. -/
theorem loadPortWritesOnlyBeforeStart : Obligations.LoadPortWritesOnlyBeforeStart := by
  intro s addr b rest ha
  refine ⟨fun hs haddr => ?_, fun hclosed => ?_⟩
  · have hlt : addr < 4096 := by omega
    refine ⟨_, (step_load ha).trans (congrArg _ (hostLoad_open b hs hlt)), ?_, fun a hne => ?_, rfl⟩
    · rw [State.readByte_writeByte, if_pos ⟨rfl, hlt⟩]
    · rw [State.readByte_writeByte, if_neg fun e => hne e.1]
      rfl
  · exact (step_load ha).trans (congrArg _ (hostLoad_closed b hclosed))

end Sys2Proof.Machine
end

section
/-! PROOFS of the encoding family (30_encoding.md R60 to R71): the Decoder's fields, the opcode map row by row, decoding
and encoding as inverses, the switch DECODE_STRICT, and that no opcode traps. -/

namespace Sys2Proof

/-! ### The fields of an encoded word (R61, R62) -/

section
variable (c : Nat) (nnn : Addr12) (x y : RegIdx) (nn : Byte) (n : BitVec 4)

@[simp] theorem fieldNNN_encodeA : fieldNNN (encodeA c nnn) = nnn := by
  apply BitVec.eq_of_toNat_eq
  rw [fieldNNN_toNat, encodeA, BitVec.toNat_ofNat]
  omega

@[simp] theorem fieldX_encodeI : fieldX (encodeI c x nn) = x := by
  apply BitVec.eq_of_toNat_eq
  rw [fieldX_toNat, encodeI, BitVec.toNat_ofNat]
  omega

@[simp] theorem fieldNN_encodeI : fieldNN (encodeI c x nn) = nn := by
  apply BitVec.eq_of_toNat_eq
  rw [fieldNN_toNat, encodeI, BitVec.toNat_ofNat]
  omega

@[simp] theorem fieldX_encodeR : fieldX (encodeR c x y n) = x := by
  apply BitVec.eq_of_toNat_eq
  rw [fieldX_toNat, encodeR, BitVec.toNat_ofNat]
  omega

@[simp] theorem fieldY_encodeR : fieldY (encodeR c x y n) = y := by
  apply BitVec.eq_of_toNat_eq
  rw [fieldY_toNat, encodeR, BitVec.toNat_ofNat]
  omega

@[simp] theorem fieldN_encodeR : fieldN (encodeR c x y n) = n := by
  apply BitVec.eq_of_toNat_eq
  rw [fieldN_toNat, encodeR, BitVec.toNat_ofNat]
  omega

@[simp] theorem fieldClass_encodeA : (fieldClass (encodeA c nnn)).toNat = c % 16 := by
  rw [fieldClass_toNat, encodeA, BitVec.toNat_ofNat]
  omega

@[simp] theorem fieldClass_encodeI : (fieldClass (encodeI c x nn)).toNat = c % 16 := by
  rw [fieldClass_toNat, encodeI, BitVec.toNat_ofNat]
  omega

@[simp] theorem fieldClass_encodeR : (fieldClass (encodeR c x y n)).toNat = c % 16 := by
  rw [fieldClass_toNat, encodeR, BitVec.toNat_ofNat]
  omega

end

/-! ### A word is the encoding of its fields (R62) -/

section
variable {op v : Word} {c : Nat}

theorem fieldClass_lt (op : Word) : (fieldClass op).toNat < 16 := (fieldClass op).isLt

theorem encodeA_fields (hc : (fieldClass op).toNat = c) : encodeA c (fieldNNN op) = op := by
  have hlt := hc ▸ fieldClass_lt op
  rw [fieldClass_toNat] at hc
  apply BitVec.eq_of_toNat_eq
  rw [encodeA_toNat _ hlt, fieldNNN_toNat]
  omega

theorem encodeI_fields (hc : (fieldClass op).toNat = c) : encodeI c (fieldX op) (fieldNN op) = op := by
  have hlt := hc ▸ fieldClass_lt op
  rw [fieldClass_toNat] at hc
  apply BitVec.eq_of_toNat_eq
  rw [encodeI_toNat _ _ hlt, fieldX_toNat, fieldNN_toNat]
  omega

theorem encodeR_fields (hc : (fieldClass op).toNat = c) : encodeR c (fieldX op) (fieldY op) (fieldN op) = op := by
  have hlt := hc ▸ fieldClass_lt op
  rw [fieldClass_toNat] at hc
  apply BitVec.eq_of_toNat_eq
  rw [encodeR_toNat _ _ _ hlt, fieldX_toNat, fieldY_toNat, fieldN_toNat]
  omega

/-- A word whose low byte is fixed by the pattern (format F). -/
theorem encodeI_of_low {nn : Byte} (hc : (fieldClass op).toNat = c) (hn : (fieldNN op).toNat = nn.toNat) :
    encodeI c (fieldX op) nn = op :=
  BitVec.eq_of_toNat_eq hn ▸ encodeI_fields hc

/-- A word whose low nibble is fixed by the pattern (format R). -/
theorem encodeR_of_low {n : BitVec 4} (hc : (fieldClass op).toNat = c) (hn : (fieldN op).toNat = n.toNat) :
    encodeR c (fieldX op) (fieldY op) n = op :=
  BitVec.eq_of_toNat_eq hn ▸ encodeR_fields hc

/-! ### The masks as conditions on fields (R66) -/

theorem and_F000_eq_iff : op &&& 0xF000#16 = v ↔ (fieldClass op).toNat * 4096 = v.toNat := by
  rw [← BitVec.toNat_inj, mask_F000, fieldClass_toNat]

theorem and_F00F_eq_iff : op &&& 0xF00F#16 = v ↔ (fieldClass op).toNat * 4096 + (fieldN op).toNat = v.toNat := by
  rw [← BitVec.toNat_inj, mask_F00F, fieldClass_toNat, fieldN_toNat]

theorem and_F0FF_eq_iff : op &&& 0xF0FF#16 = v ↔ (fieldClass op).toNat * 4096 + (fieldNN op).toNat = v.toNat := by
  rw [← BitVec.toNat_inj, mask_F0FF, fieldClass_toNat, fieldNN_toNat]

theorem fieldClass_of_F000 (hv : v.toNat = c * 4096) (h : op &&& 0xF000#16 = v) : (fieldClass op).toNat = c := by
  have := and_F000_eq_iff.1 h
  omega

theorem fields_of_F00F {n : BitVec 4} (hv : v.toNat = c * 4096 + n.toNat) (h : op &&& 0xF00F#16 = v) :
    (fieldClass op).toNat = c ∧ (fieldN op).toNat = n.toNat := by
  have := and_F00F_eq_iff.1 h
  omega

theorem fields_of_F0FF {nn : Byte} (hv : v.toNat = c * 4096 + nn.toNat) (h : op &&& 0xF0FF#16 = v) :
    (fieldClass op).toNat = c ∧ (fieldNN op).toNat = nn.toNat := by
  have := and_F0FF_eq_iff.1 h
  omega

theorem eq_of_FFFF (h : op &&& 0xFFFF#16 = v) : v = op :=
  h.symm.trans BitVec.and_allOnes

theorem encodeI_of_F0FF {nn : Byte} (hv : v.toNat = c * 4096 + nn.toNat) (h : op &&& 0xF0FF#16 = v) :
    encodeI c (fieldX op) nn = op :=
  have ⟨hc, hn⟩ := fields_of_F0FF hv h
  encodeI_of_low hc hn

theorem encodeR_of_F00F {n : BitVec 4} (hv : v.toNat = c * 4096 + n.toNat) (h : op &&& 0xF00F#16 = v) :
    encodeR c (fieldX op) (fieldY op) n = op :=
  have ⟨hc, hn⟩ := fields_of_F00F hv h
  encodeR_of_low hc hn

/-! ### Encoding a decoded opcode, along the decoder's two levels (R64, R67) -/

theorem encode_decodeClass0 (hc : (fieldClass op).toNat = 0) : encode (decodeClass0 true op) = op := by
  unfold decodeClass0
  split
  next => rfl
  next hx =>
    have hX : fieldX op = 0#4 := by simpa using hx
    have hop := encodeI_fields hc
    rw [hX] at hop
    split
    next hnn => rwa [BitVec.eq_of_toNat_eq (y := 0xE0#8) hnn] at hop
    next hnn => rwa [BitVec.eq_of_toNat_eq (y := 0xEE#8) hnn] at hop
    next => rfl

theorem encode_decodeLastNibbleZero {i : Instr} (hi : encode i = encodeR c (fieldX op) (fieldY op) 0#4)
    (hc : (fieldClass op).toNat = c) : encode (decodeLastNibbleZero true op i) = op := by
  unfold decodeLastNibbleZero
  split
  next => rfl
  next hn =>
    have hN : fieldN op = 0#4 := by simpa using hn
    rw [hi, ← hN, encodeR_fields hc]

theorem encode_decodeClass8 (hc : (fieldClass op).toNat = 8) : encode (decodeClass8 op) = op := by
  unfold decodeClass8
  split
  case h_9 => rfl
  all_goals next hn => exact encodeR_of_low hc hn

theorem encode_decodeClassF (hc : (fieldClass op).toNat = 0xF) : encode (decodeClassF op) = op := by
  unfold decodeClassF
  split
  case h_6 => rfl
  all_goals next hn => exact encodeI_of_low hc hn

theorem encode_decodeOpcode (op : Word) : encode (decodeOpcode op) = op := by
  rw [decodeOpcode, Config.decodeStrict, decodeOpcodeWith]
  split
  next hc => exact encode_decodeClass0 hc
  next hc => exact encodeA_fields hc
  next hc => exact encodeA_fields hc
  next hc => exact encodeI_fields hc
  next hc => exact encodeI_fields hc
  next hc => exact encode_decodeLastNibbleZero rfl hc
  next hc => exact encodeI_fields hc
  next hc => exact encodeI_fields hc
  next hc => exact encode_decodeClass8 hc
  next hc => exact encode_decodeLastNibbleZero rfl hc
  next hc => exact encodeA_fields hc
  next hc => exact encodeI_fields hc
  next hc => exact encodeR_fields hc
  next hc => exact encode_decodeClassF hc
  next => rfl

end

/-! ### Decoding an encoded instruction -/

/-- The family EncodesInMap over every instruction. -/
theorem inMap_encode (i : Instr) : i.recognized = true → inMap (encode i) = true := by
  open Laws.EncodesInMap in
  cases i
  exacts [cls, ret, jp _, call _, seImm _ _, sneImm _ _, seReg _ _, ldImm _ _, addImm _ _, ldReg _ _, orReg _ _,
    andReg _ _, xorReg _ _, addReg _ _, subReg _ _, shr _ _, shl _ _, sneReg _ _, ldI _, rnd _ _, drw _ _ _, addI _,
    ldF _, ldB _, storeRegs _, loadRegs _, unrecognized _]

theorem Instr.eq_unrecognized_of_not_recognized {i : Instr} (h : i.recognized = false) :
    i = .unrecognized (encode i) := by
  cases i
  case unrecognized => rfl
  all_goals cases h

/-- A recognised instruction's opcode is in the map, and the decoder's answer has the opcode it was given (R68). -/
theorem decodeOpcode_of_not_inMap {op : Word} (h : inMap op = false) : decodeOpcode op = .unrecognized op := by
  have hrec : (decodeOpcode op).recognized = false := by
    by_contra hne
    have hin := inMap_encode _ (eq_true_of_ne_false hne)
    rw [encode_decodeOpcode, h] at hin
    cases hin
  rw [Instr.eq_unrecognized_of_not_recognized hrec, encode_decodeOpcode]

/-- An encoded word's class selects the instruction's format, the pattern's fixed low field its row. -/
theorem decodeOpcode_encode {i : Instr} (h : i.wf = true) : decodeOpcode (encode i) = i := by
  cases i
  case cls | ret => rfl
  case unrecognized op => exact decodeOpcode_of_not_inMap (by simpa [Instr.wf, encode] using h)
  case seReg | sneReg => simp [encode, decodeOpcode, decodeOpcodeWith, decodeLastNibbleZero]
  case ldReg | orReg | andReg | xorReg | addReg | subReg | shr | shl =>
    simp [encode, decodeOpcode, decodeOpcodeWith, decodeClass8]
  case addI | ldF | ldB | storeRegs | loadRegs => simp [encode, decodeOpcode, decodeOpcodeWith, decodeClassF]
  all_goals simp [encode, decodeOpcode, decodeOpcodeWith]

/-- Settles O1: the two bytes make the encoded opcode again, and the decoder inverts the encoder. -/
theorem decodeOfEncodeIsIdentity : Obligations.DecodeOfEncodeIsIdentity := by
  intro i rest h
  simp [encodeBytes, decodeOpcode_encode h]

/-! ### The opcode map's rows with their instructions (R66) -/

/-- The opcode map: each row's mask and match with the instruction an opcode of that row means. -/
def rowMeanings : List (MapRow × (Word → Instr)) :=
  mapRows.zip [
    fun _ => .cls,
    fun _ => .ret,
    fun op => .jp (fieldNNN op),
    fun op => .call (fieldNNN op),
    fun op => .seImm (fieldX op) (fieldNN op),
    fun op => .sneImm (fieldX op) (fieldNN op),
    fun op => .seReg (fieldX op) (fieldY op),
    fun op => .ldImm (fieldX op) (fieldNN op),
    fun op => .addImm (fieldX op) (fieldNN op),
    fun op => .ldReg (fieldX op) (fieldY op),
    fun op => .orReg (fieldX op) (fieldY op),
    fun op => .andReg (fieldX op) (fieldY op),
    fun op => .xorReg (fieldX op) (fieldY op),
    fun op => .addReg (fieldX op) (fieldY op),
    fun op => .subReg (fieldX op) (fieldY op),
    fun op => .shr (fieldX op) (fieldY op),
    fun op => .shl (fieldX op) (fieldY op),
    fun op => .sneReg (fieldX op) (fieldY op),
    fun op => .ldI (fieldNNN op),
    fun op => .rnd (fieldX op) (fieldNN op),
    fun op => .drw (fieldX op) (fieldY op) (fieldN op),
    fun op => .addI (fieldX op),
    fun op => .ldF (fieldX op),
    fun op => .ldB (fieldX op),
    fun op => .storeRegs (fieldX op),
    fun op => .loadRegs (fieldX op)]

theorem rowMeanings_rows : rowMeanings.map Prod.fst = mapRows := rfl

section
variable (op : Word)

/-- An opcode of a row is the encoding of the instruction the row means. -/
theorem encode_of_row : ∀ p ∈ rowMeanings, p.1.selects op = true → encode (p.2 op) = op := by
  simp only [rowMeanings, mapRows, mapRowsLow, mapRowsHigh, List.cons_append, List.nil_append, List.zip_cons_cons,
    List.zip_nil_left, List.forall_mem_cons, MapRow.selects, beq_iff_eq]
  refine ⟨eq_of_FFFF, eq_of_FFFF,
    fun h => encodeA_fields (fieldClass_of_F000 rfl h), fun h => encodeA_fields (fieldClass_of_F000 rfl h),
    fun h => encodeI_fields (fieldClass_of_F000 rfl h), fun h => encodeI_fields (fieldClass_of_F000 rfl h),
    encodeR_of_F00F rfl,
    fun h => encodeI_fields (fieldClass_of_F000 rfl h), fun h => encodeI_fields (fieldClass_of_F000 rfl h),
    encodeR_of_F00F rfl, encodeR_of_F00F rfl, encodeR_of_F00F rfl, encodeR_of_F00F rfl, encodeR_of_F00F rfl,
    encodeR_of_F00F rfl, encodeR_of_F00F rfl, encodeR_of_F00F rfl, encodeR_of_F00F rfl,
    fun h => encodeA_fields (fieldClass_of_F000 rfl h), fun h => encodeI_fields (fieldClass_of_F000 rfl h),
    fun h => encodeR_fields (fieldClass_of_F000 rfl h),
    encodeI_of_F0FF rfl, encodeI_of_F0FF rfl, encodeI_of_F0FF rfl, encodeI_of_F0FF rfl, encodeI_of_F0FF rfl, nofun⟩

theorem recognized_of_row : ∀ p ∈ rowMeanings, (p.2 op).recognized = true := by
  simp [rowMeanings, mapRows, mapRowsLow, mapRowsHigh, Instr.recognized]

theorem exists_row_of_inMap (h : inMap op = true) : ∃ p ∈ rowMeanings, p.1.selects op = true := by
  obtain ⟨r, hr, hsel⟩ := List.any_eq_true.1 h
  rw [← rowMeanings_rows] at hr
  obtain ⟨p, hp, rfl⟩ := List.mem_map.1 hr
  exact ⟨p, hp, hsel⟩

theorem Instr.wf_of_recognized {i : Instr} (h : i.recognized = true) : i.wf = true := by
  cases i
  case unrecognized => cases h
  all_goals rfl

/-- The decoder inverts the encoder, and an opcode of the row is an encoded word. -/
theorem decodeOpcode_of_row {p : MapRow × (Word → Instr)} (hp : p ∈ rowMeanings) (h : p.1.selects op = true) :
    decodeOpcode op = p.2 op :=
  calc decodeOpcode op
      = decodeOpcode (encode (p.2 op)) := by rw [encode_of_row op p hp h]
    _ = p.2 op := decodeOpcode_encode (Instr.wf_of_recognized (recognized_of_row op p hp))

@[simp] theorem decodeOpcode_recognized : (decodeOpcode op).recognized = inMap op := by
  cases h : inMap op with
  | false => rw [decodeOpcode_of_not_inMap h]; rfl
  | true =>
    obtain ⟨p, hp, hsel⟩ := exists_row_of_inMap op h
    rw [decodeOpcode_of_row op hp hsel, recognized_of_row op p hp]

theorem decodeOpcode_eq_unrecognized_iff : decodeOpcode op = .unrecognized op ↔ inMap op = false :=
  ⟨fun h => by rw [← decodeOpcode_recognized, h]; rfl, decodeOpcode_of_not_inMap⟩

theorem decodeOpcode_wf : (decodeOpcode op).wf = true := by
  cases h : inMap op with
  | false => simp [decodeOpcode_of_not_inMap h, Instr.wf, h]
  | true => exact Instr.wf_of_recognized (by rw [decodeOpcode_recognized, h])

end

/-- Settles O2: encoding and decoding are inverses in both directions, so the meaning exists and is the only one. -/
theorem everyOpcodeHasOneMeaning : Obligations.EveryOpcodeHasOneMeaning := by
  intro op
  refine ⟨decodeOpcode_wf op, encode_decodeOpcode op, by simp, fun i hwf hop => ?_⟩
  rw [← hop, decodeOpcode_encode hwf]

/-- Settles O4: the rows one by one, and the fallback. -/
theorem decoderFollowsTheOpcodeMap : Obligations.DecoderFollowsTheOpcodeMap := by
  intro op
  have hrows : ∀ p ∈ rowMeanings, p.1.selects op = true → decodeOpcode op = p.2 op := fun _ => decodeOpcode_of_row op
  simpa [rowMeanings, mapRows, mapRowsLow, mapRowsHigh, MapRow.selects, and_assoc] using
    And.intro hrows (decodeOpcode_of_not_inMap (op := op))

/-! ### The rows are disjoint (R66) -/

/-- Two rows' matches differ on a bit that both masks fix. -/
def MapRow.Apart (r q : MapRow) : Prop := r.value &&& q.mask ≠ q.value &&& r.mask

theorem MapRow.Apart.not_both {r q : MapRow} {op : Word} (h : r.Apart q) (hr : r.selects op = true) :
    ¬ q.selects op = true := by
  intro hq
  simp only [MapRow.selects, beq_iff_eq] at hr hq
  apply h
  rw [← hr, ← hq, BitVec.and_assoc, BitVec.and_assoc, BitVec.and_comm r.mask]

theorem mapRows_apart : mapRows.Pairwise MapRow.Apart := by
  unfold MapRow.Apart
  decide

/-- Of rows pairwise apart an opcode selects at most one. -/
theorem length_selected_le_one (op : Word) : (mapRows.filter fun r => r.selects op).length ≤ 1 := by
  have hsel : ∀ r ∈ mapRows.filter fun r => r.selects op, r.selects op = true := fun r hr => (List.mem_filter.1 hr).2
  have hapart := mapRows_apart.filter fun r => r.selects op
  generalize mapRows.filter (fun r => r.selects op) = rows at hsel hapart
  match rows with
  | [] => exact Nat.zero_le 1
  | [_] => exact Nat.le_refl 1
  | r :: q :: _ =>
    have hrq := (List.pairwise_cons.1 hapart).1 q (by simp)
    exact absurd (hsel q (by simp)) (hrq.not_both (hsel r (by simp)))

theorem selected_eq_nil_iff (op : Word) : (mapRows.filter fun r => r.selects op) = [] ↔ inMap op = false := by
  simp [inMap, List.filter_eq_nil_iff]

/-- Settles O5: the rows are pairwise apart, and the opcodes outside the map are those that decode to the no-op. -/
theorem rowsAreDisjointAndTheRestIsUnrecognized : Obligations.RowsAreDisjointAndTheRestIsUnrecognized := by
  intro op
  rw [selected_eq_nil_iff, decodeOpcode_eq_unrecognized_iff, decodeOpcode_recognized]
  exact ⟨length_selected_le_one op, Iff.rfl, Iff.rfl⟩

/-! ### The switch DECODE_STRICT (R65) -/

section
variable {op : Word}

theorem decodeOpcodeWith_class0 (strict : Bool) (h : (fieldClass op).toNat = 0) :
    decodeOpcodeWith strict op = decodeClass0 strict op := by
  simp only [decodeOpcodeWith, h]

theorem decodeClass0_unrecognized (strict : Bool) (h0 : (fieldNN op).toNat ≠ 0xE0) (hE : (fieldNN op).toNat ≠ 0xEE) :
    decodeClass0 strict op = .unrecognized op := by
  unfold decodeClass0
  split
  next => rfl
  next =>
    split
    next h => exact absurd h h0
    next h => exact absurd h hE
    next => rfl

/-- Outside the classes 0, 5 and 9 the decoder does not read the switch. -/
theorem decodeOpcodeWith_switch (h0 : (fieldClass op).toNat ≠ 0) (h5 : (fieldClass op).toNat ≠ 5)
    (h9 : (fieldClass op).toNat ≠ 9) : decodeOpcodeWith false op = decodeOpcodeWith true op := by
  unfold decodeOpcodeWith
  split
  case h_1 h => exact absurd h h0
  case h_6 h => exact absurd h h5
  case h_10 h => exact absurd h h9
  all_goals rfl

end

/-- Settles O7: each loosened mask fixes the class and the low byte, or the class; class 0 has no third low byte, and
no other class reads the switch. -/
theorem looseDecodingChangesFourMasksOnly : Obligations.LooseDecodingChangesFourMasksOnly := by
  intro op
  refine ⟨fun h => ?cls, fun h => ?ret, fun h => ?seReg, fun h => ?sneReg, fun h0 hE h5 h9 => ?same, rfl⟩
  case cls =>
    obtain ⟨hc, hn⟩ := fields_of_F0FF (c := 0) (nn := 0xE0#8) rfl h
    simp [decodeOpcodeWith_class0 _ hc, decodeClass0, hn]
  case ret =>
    obtain ⟨hc, hn⟩ := fields_of_F0FF (c := 0) (nn := 0xEE#8) rfl h
    simp [decodeOpcodeWith_class0 _ hc, decodeClass0, hn]
  case seReg => simp [decodeOpcodeWith, decodeLastNibbleZero, fieldClass_of_F000 (c := 5) rfl h]
  case sneReg => simp [decodeOpcodeWith, decodeLastNibbleZero, fieldClass_of_F000 (c := 9) rfl h]
  case same =>
    simp only [ne_eq, and_F0FF_eq_iff, and_F000_eq_iff, BitVec.toNat_ofNat] at h0 hE h5 h9
    by_cases hc : (fieldClass op).toNat = 0
    · have hn0 : (fieldNN op).toNat ≠ 0xE0 := by omega
      have hnE : (fieldNN op).toNat ≠ 0xEE := by omega
      rw [decodeOpcodeWith_class0 _ hc, decodeOpcodeWith_class0 _ hc, decodeClass0_unrecognized _ hn0 hnE,
        decodeClass0_unrecognized _ hn0 hnE]
    · exact decodeOpcodeWith_switch hc (by omega) (by omega)

/-! ### The Decoder's outputs as formulas, and written words (R61, R71) -/

/-- Settles O3: a shift is a division and a mask a remainder, as the fields' laws have them. -/
theorem decoderFieldsAreTheFormulas : Obligations.DecoderFieldsAreTheFormulas := by
  intro op
  have hlt := Word.lt op
  have mask4 (k : Nat) : k &&& 0xF = k % 16 := Nat.and_two_pow_sub_one_eq_mod k 4
  have mask8 (k : Nat) : k &&& 0xFF = k % 256 := Nat.and_two_pow_sub_one_eq_mod k 8
  have mask12 (k : Nat) : k &&& 0xFFF = k % 4096 := Nat.and_two_pow_sub_one_eq_mod k 12
  simp only [mask4, mask8, mask12, Nat.shiftRight_eq_div_pow, fieldClass_toNat, fieldX_toNat, fieldY_toNat,
    fieldN_toNat, fieldNN_toNat, fieldNNN_toNat, true_and]
  omega

/-- Settles O8, by running the decoder on each word. -/
theorem writtenWordsDecode : Obligations.WrittenWordsDecode :=
  ⟨rfl, rfl, rfl, rfl, rfl, rfl, rfl⟩

end Sys2Proof

namespace Sys2Proof.Machine

/-! ### No opcode traps (R70, R186) -/

/-- An instruction halts the machine or completes; either way it answers a next state. -/
theorem exec_answers (i : Instr) (s : State) : ∃ t, exec i s = .next t := by
  rcases exec_cases i s with ⟨c, -, -, he⟩ | ⟨t, he, -⟩
  · exact ⟨_, he.trans (raiseHalt_def c i s)⟩
  · exact ⟨t, he⟩

theorem cycle_answers (s : State) : ∃ t, cycle s = .next t := by
  rcases cycle_cases s with ⟨-, hc⟩ | ⟨_, -, ⟨_, -, -, -, hc⟩ | ⟨_, -, -, hc⟩⟩
  all_goals exact ⟨_, hc⟩

theorem coreStep_answers (s : State) : ∃ t, coreStep s = .next t := by
  cases he : s.cycleEnabled with
  | true => exact coreStep_enabled he ▸ cycle_answers s
  | false => exact ⟨s, coreStep_idle he⟩

theorem takeAction_answers (a : HostAction) (s : State) : ∃ t, takeAction a s = .next t := by
  cases a
  case tick => exact coreStep_answers s
  all_goals exact ⟨_, rfl⟩

/-- Settles O34, by the host's next action: none pending is the core's turn, else the action is taken. -/
theorem everyStepAnswersANextState : Obligations.EveryStepAnswersANextState := by
  refine ⟨exec_answers, fun s => ?_⟩
  cases ha : s.hostActions with
  | nil => exact step_coreTurn (.inl ha) ▸ coreStep_answers s.begin
  | cons a rest => exact step_cons ha ▸ takeAction_answers a s.begin

end Sys2Proof.Machine
end

section
/-! PROOFS of the flow family (40_flow.md R80 to R87): what JP, CALL, RET and the four skips do to pc and the call stack,
and that they touch nothing else. -/

namespace Sys2Proof.Machine

section
variable {s t : State}

/-- The frame of every completed control transfer. -/
theorem KeepsAllButFlow.of_pc_stack (h : t = { s with pc := t.pc, stack := t.stack }) : KeepsAllButFlow s t := by
  rw [h]
  exact ⟨fun _ => rfl, rfl, fun _ _ => rfl, ⟨fun _ _ => rfl, rfl⟩, rfl, ⟨rfl, rfl, rfl, rfl, rfl, rfl, rfl, rfl, rfl, rfl⟩⟩

/-! ### Jump, call, return (R80 to R82) -/

/-- Settles O9: the target is NNN zero-extended. -/
theorem jumpSetsPc : Obligations.JumpSetsPc :=
  fun nnn s => ⟨s.setPc (zextAddr nnn), rfl, zextAddr_toNat nnn, rfl, .of_pc_stack rfl⟩

theorem exec_call_of_room (nnn : Addr12) (h : s.stack.length ≠ s.stackDepth) :
    exec (.call nnn) s = .next ((s.push s.pc).setPc (zextAddr nnn)) := by
  simp only [exec, execCall, h, if_false]

theorem exec_call_of_full (nnn : Addr12) (h : s.stack.length = s.stackDepth) :
    exec (.call nnn) s = raiseHalt .stackOverflow (.call nnn) s := by
  simp only [exec, execCall, h, if_true]

theorem exec_ret_of_cons {w : Word} {ws : List Word} (h : s.stack = w :: ws) :
    exec .ret s = .next (s.dropTop.setPc w) := by
  simp only [exec, execRet, h]

theorem exec_ret_of_nil (h : s.stack = []) : exec .ret s = raiseHalt .stackUnderflow .ret s := by
  simp only [exec, execRet, h]

/-- Settles O10, by whether the stack holds STACK_DEPTH entries; the halt's opcode is CALL's encoding. -/
theorem callPushesPcOrOverflows : Obligations.CallPushesPcOrOverflows := by
  refine fun nnn s => ⟨fun hroom => ?room, fun hfull a ha => ?full⟩
  case room => exact ⟨_, exec_call_of_room nnn hroom, zextAddr_toNat nnn, rfl, .of_pc_stack rfl⟩
  case full => exact exec_call_of_full nnn hfull ▸ raiseHalt_haltsWith .stackOverflow (.call nnn) ha

/-- Settles O11, by whether the stack is empty; the halt's opcode is RET's encoding. -/
theorem returnPopsPcOrUnderflows : Obligations.ReturnPopsPcOrUnderflows := by
  refine fun s => ⟨fun w ws hcons => ?pop, fun hnil a ha => ?empty⟩
  case pop => exact ⟨_, exec_ret_of_cons hcons, rfl, congrArg List.tail hcons, .of_pc_stack rfl⟩
  case empty => exact exec_ret_of_nil hnil ▸ raiseHalt_haltsWith .stackUnderflow .ret ha

/-- Settles O12: the entry RET pops is the pc CALL pushed. -/
theorem returnResumesAfterCall : Obligations.ReturnResumesAfterCall := by
  refine fun nnn s hroom => ⟨_, exec_call_of_room nnn hroom, fun r hr => ?_⟩
  have hcons : r.stack = s.pc :: s.stack := hr
  exact ⟨_, exec_ret_of_cons hcons, rfl, congrArg List.tail hcons⟩

/-! ### The skips (R83 to R87) -/

/-- A skip on a Boolean that decides `c` skips when `c` holds. -/
theorem skipIf_skipsWhen {b : Bool} {c : Prop} (h : b = true ↔ c) : SkipsWhen (.next (skipIf b s)) s c := by
  rw [skipIf_eq]
  exact ⟨_, rfl, fun hc => if_pos (h.2 hc), fun hc => if_neg (mt h.1 hc), rfl, .of_pc_stack rfl⟩

end

theorem byte_beq_iff_toNat_eq (a b : Byte) : (a == b) = true ↔ a.toNat = b.toNat :=
  beq_iff_eq.trans BitVec.toNat_inj.symm

theorem byte_bne_iff_toNat_ne (a b : Byte) : (a != b) = true ↔ a.toNat ≠ b.toNat :=
  bne_iff_ne.trans BitVec.toNat_inj.symm.not

/-- Settles O13: each skip's condition compares two bytes, as the numbers they hold. -/
theorem skipsCompareAndAdvance : Obligations.SkipsCompareAndAdvance := by
  intro x y nn s
  exact ⟨skipIf_skipsWhen (byte_beq_iff_toNat_eq _ _), skipIf_skipsWhen (byte_bne_iff_toNat_ne _ _),
    skipIf_skipsWhen (byte_beq_iff_toNat_eq _ _), skipIf_skipsWhen (byte_bne_iff_toNat_ne _ _)⟩

end Sys2Proof.Machine
end

section
/-! PROOFS of the ALU family (41_alu.md R100 to R113): each instruction writes its result into Vx, some a flag into VF
first, and nothing else; and no instruction writes a register that is not one of its destinations. -/

namespace Sys2Proof.Machine

/-! ### The two shapes of a result: Vx alone, or the flag and then Vx (R111) -/

section
variable {s t : State} {x : RegIdx} {b f : Byte} {v n : Nat}

/-- The frame of every register instruction but RND. -/
theorem KeepsAllButRegs.of_V (h : t = { s with V := t.V }) : KeepsAllButRegs s t := by
  rw [h]
  exact ⟨rfl, rfl, rfl, fun _ _ => rfl, ⟨fun _ _ => rfl, rfl⟩, rfl,
    ⟨rfl, rfl, rfl, rfl, rfl, rfl, rfl, rfl, rfl, rfl⟩⟩

theorem setReg_writesReg (hb : b.toNat = v) : WritesReg (.next (s.setReg x b)) s x v :=
  ⟨_, rfl, by rw [State.reg_setReg_same, hb], fun _ hk => State.reg_setReg_other s b hk, .of_V rfl⟩

theorem reg_setFlag_setReg_other {k : RegIdx} (hx : k ≠ x) (hf : k ≠ VF) :
    ((s.setReg VF f).setReg x b).reg k = s.reg k := by
  rw [State.reg_setReg_other _ _ hx, State.reg_setReg_other _ _ hf]

/-- A result written after the flag: VF keeps the flag unless it is the destination. -/
theorem setFlag_setReg_writesRegAndFlag (hb : b.toNat = v) (hf : f.toNat = n) :
    WritesRegAndFlag (.next ((s.setReg VF f).setReg x b)) s x v n := by
  refine ⟨_, rfl, ?result, fun hx => ?flag, fun k hk => ?others, .of_V rfl⟩
  case result => rw [State.reg_setReg_same, hb]
  case flag => rw [State.reg_setReg_other _ _ (Ne.symm hx), State.reg_setReg_same, hf]
  case others =>
    obtain ⟨hkx, hkf⟩ := not_or.1 hk
    exact reg_setFlag_setReg_other hkx hkf

/-- An operand read after the flag was written: one that is VF is the flag. -/
theorem reg_setFlag_toNat (s : State) (hf : f.toNat = n) (k : RegIdx) :
    ((s.setReg VF f).reg k).toNat = if k = VF then n else (s.reg k).toNat := by
  rw [State.reg_setReg, apply_ite BitVec.toNat, hf]

end

/-! ### Flags and results as numbers -/

theorem flagByte_toNat (c : Prop) [Decidable c] : (flagByte (decide c)).toNat = if c then 1 else 0 := by
  by_cases h : c <;> simp [flagByte, h]

theorem lowBitFlag_toNat (a : Byte) : (lowBitFlag a).toNat = a.toNat % 2 := by
  rw [lowBitFlag, BitVec.toNat_and]
  exact Nat.and_one_is_mod a.toNat

theorem highBitFlag_toNat (a : Byte) : (highBitFlag a).toNat = a.toNat / 128 := by
  calc (highBitFlag a).toNat = (lowBitFlag (a >>> 7)).toNat := rfl
    _ = a.toNat / 128 % 2 := by rw [lowBitFlag_toNat, BitVec.toNat_ushiftRight, Nat.shiftRight_eq_div_pow]
    _ = a.toNat / 128 := by omega

theorem byte_sub_toNat (a b : Byte) : (a - b).toNat = (a.toNat + 256 - b.toNat) % 256 := by
  rw [BitVec.toNat_sub]
  omega

theorem byte_shiftRight_one_toNat (a : Byte) : (a >>> 1).toNat = a.toNat / 2 := by
  rw [BitVec.toNat_ushiftRight, Nat.shiftRight_one]

theorem byte_shiftLeft_one_toNat (a : Byte) : (a <<< 1).toNat = a.toNat * 2 % 256 := by
  rw [BitVec.toNat_shiftLeft, Nat.shiftLeft_eq, Nat.pow_one]

/-! ### The instructions that write Vx alone (R100 to R105, R110) -/

/-- Settles O14: each writes one byte, the bitwise operations as they are on numbers. -/
theorem loadsAndLogicWriteVxOnly : Obligations.LoadsAndLogicWriteVxOnly := fun _ _ _ _ =>
  ⟨setReg_writesReg rfl, setReg_writesReg rfl, setReg_writesReg (BitVec.toNat_or ..),
    setReg_writesReg (BitVec.toNat_and ..), setReg_writesReg (BitVec.toNat_xor ..)⟩

/-- Settles O15: the sum of two bytes is the sum modulo 256. -/
theorem addImmediateWraps : Obligations.AddImmediateWraps := fun _ _ _ => setReg_writesReg (BitVec.toNat_add ..)

/-- RND is a write to Vx in the state that has counted the draw. -/
theorem exec_rnd (x : RegIdx) (nn : Byte) (s : State) :
    exec (.rnd x nn) s = .next (s.countDraw.setReg x (Config.randomByte s.rndDraws &&& nn)) := rfl

/-- Settles O20: the byte written is the conjunction with NN, whose bits are off where NN's are. -/
theorem randomByteIsMasked : Obligations.RandomByteIsMasked := by
  refine fun x nn s => ⟨setReg_writesReg (s := s.countDraw) (BitVec.toNat_and ..), fun t h b hb => ?_⟩
  obtain rfl := Host.Outcome.next.inj ((exec_rnd x nn s).symm.trans h)
  rw [State.reg_setReg_same, BitVec.getLsbD_and, hb, Bool.and_false]

/-! ### The instructions that write a flag first (R106 to R109) -/

/-- Settles O16: the sum and its carry are both taken of the old values. -/
theorem addRegistersCarries : Obligations.AddRegistersCarries := fun _ _ _ =>
  setFlag_setReg_writesRegAndFlag (BitVec.toNat_ofNat ..) (flagByte_toNat _)

/-- Settles O17: both operands are read after the flag. -/
theorem subtractAfterTheFlag : Obligations.SubtractAfterTheFlag := by
  intro x y s
  have hf : (greaterFlag (s.reg x) (s.reg y)).toNat = _ := flagByte_toNat _
  refine setFlag_setReg_writesRegAndFlag ?_ hf
  rw [byte_sub_toNat, reg_setFlag_toNat s hf, reg_setFlag_toNat s hf]

/-- Settles O18: Vx is read after the flag. -/
theorem shiftRightAfterTheFlag : Obligations.ShiftRightAfterTheFlag := by
  intro x y s
  have hf := lowBitFlag_toNat (s.reg x)
  refine setFlag_setReg_writesRegAndFlag ?_ hf
  rw [byte_shiftRight_one_toNat, reg_setFlag_toNat s hf]

/-- Settles O19: Vx is read after the flag. -/
theorem shiftLeftAfterTheFlag : Obligations.ShiftLeftAfterTheFlag := by
  intro x y s
  have hf := highBitFlag_toNat (s.reg x)
  refine setFlag_setReg_writesRegAndFlag ?_ hf
  rw [byte_shiftLeft_one_toNat, reg_setFlag_toNat s hf]

/-! ### No other instruction writes a register, and these only their destinations (R113) -/

section
variable {s t : State} {k : RegIdx}

theorem raiseHalt_reg {c : FaultCause} {i : Instr} (h : raiseHalt c i s = .next t) : t.reg k = s.reg k := by
  obtain rfl := Host.Outcome.next.inj ((raiseHalt_def c i s).symm.trans h)
  rfl

/-- An instruction that either halts or completes in `u` keeps a register that `u` keeps. -/
theorem reg_of_haltOrNext {p : Prop} [Decidable p] {c : FaultCause} {i : Instr} {u : State}
    (h : (if p then raiseHalt c i s else .next u) = .next t) (hu : u.reg k = s.reg k) : t.reg k = s.reg k := by
  split at h
  · exact raiseHalt_reg h
  · obtain rfl := Host.Outcome.next.inj h
    exact hu

/-- DRW writes VF, and only if it plots a row (43_display.md R144). -/
theorem drawSprite_reg_of_not_mayWrite {x y : RegIdx} {n : BitVec 4} (hk : mayWriteReg (.drw x y n) k = false) :
    (drawSprite x y n.toNat s).reg k = s.reg k := by
  by_cases hv : k = VF
  · have hn : n = 0#4 := by simpa [mayWriteReg, hv] using hk
    rw [hn]
    exact congrArg (State.reg · k) (drawSprite_zero x y s)
  · exact drawSprite_reg _ s hv

/-- LD Vx,[I] writes V0 to Vx (42_index_memory.md R125). -/
theorem loadLoop_reg_of_not_mayWrite {x : RegIdx} (hk : mayWriteReg (.loadRegs x) k = false) :
    ((List.range (x.toNat + 1)).foldl loadReg s).reg k = s.reg k := by
  have hlt : ¬ k.toNat < x.toNat + 1 := fun h => of_decide_eq_false hk (Nat.le_of_lt_succ h)
  rw [loadLoop_reg s x.isLt, if_neg hlt]

end

/-- Settles O35, by the instruction: those that write Vx, those that write VF and Vx, the two loops over registers, and
those that leave V alone; a halt leaves V alone too. -/
theorem registersChangeOnlyAsDestinations : Obligations.RegistersChangeOnlyAsDestinations := by
  intro i s t k h hk
  cases i
  case ldImm | addImm | ldReg | orReg | andReg | xorReg | rnd =>
    cases h
    exact State.reg_setReg_other _ _ (beq_eq_false_iff_ne.1 hk)
  case addReg | subReg | shr | shl =>
    cases h
    obtain ⟨hx, hf⟩ := Bool.or_eq_false_iff.1 hk
    exact reg_setFlag_setReg_other (beq_eq_false_iff_ne.1 hx) (beq_eq_false_iff_ne.1 hf)
  case drw x y n => exact reg_of_haltOrNext h (drawSprite_reg_of_not_mayWrite hk)
  case loadRegs x => exact reg_of_haltOrNext h (loadLoop_reg_of_not_mayWrite hk)
  case storeRegs x => exact reg_of_haltOrNext h (storeLoop_reg s _ k)
  case ldB | call => exact reg_of_haltOrNext h rfl
  case ret =>
    cases hs : s.stack with
    | nil => exact raiseHalt_reg ((exec_ret_of_nil hs).symm.trans h)
    | cons w ws => cases (exec_ret_of_cons hs).symm.trans h; rfl
  case seImm | sneImm | seReg | sneReg => cases h; rw [skipIf_eq, State.setPc_reg]
  case cls | jp | ldI | addI | ldF | unrecognized => cases h; rfl

end Sys2Proof.Machine
end

section
/-! PROOFS of the index and memory family (42_index_memory.md R120 to R126): the instructions that compute I, and the
three that access the bytes from I on, each of which checks its whole range first and then only stores or only loads. -/

namespace Sys2Proof.Machine

section
variable {s t : State} {w : Word} {v n : Nat}

/-! ### The instructions that compute I (R120 to R122) -/

/-- The frame of a write to I. -/
theorem KeepsAllButIndex.of_I (h : t = { s with I := t.I }) : KeepsAllButIndex s t := by
  rw [h]
  exact ⟨fun _ => rfl, rfl, rfl, fun _ _ => rfl, ⟨fun _ _ => rfl, rfl⟩, rfl,
    ⟨rfl, rfl, rfl, rfl, rfl, rfl, rfl, rfl, rfl, rfl⟩⟩

theorem setI_writesIndex (hw : w.toNat = v) : WritesIndex (.next (s.setI w)) s v := ⟨_, rfl, hw, .of_I rfl⟩

theorem word_add_byte_toNat (w : Word) (b : Byte) : (w + b.setWidth 16).toNat = (w.toNat + b.toNat) % 65536 := by
  rw [BitVec.toNat_add, BitVec.toNat_setWidth_of_le (by decide)]

/-- No glyph address wraps: the largest is 255 * 5. -/
theorem glyphAddr_toNat (b : Byte) : (glyphAddr b).toNat = b.toNat * 5 := by
  have := b.isLt
  simp only [glyphAddr, Config.glyphStride, BitVec.toNat_ofNat]
  omega

/-- Settles O21: each is a write to I, of a word whose value is the one stated. -/
theorem indexInstructionsWriteI : Obligations.IndexInstructionsWriteI := fun _ nnn _ =>
  ⟨setI_writesIndex (zextAddr_toNat nnn), setI_writesIndex (word_add_byte_toNat ..),
    setI_writesIndex (glyphAddr_toNat _)⟩

/-! ### The range check before the first access (R126, 20_memory.md R46) -/

section
variable {o : Host.Outcome State Fault Refusal} {i : Instr} {x : RegIdx} {a : Word}

/-- An instruction whose highest address I + n is in Memory passes its check. -/
theorem rangeChecked_of_inRange (h : s.I.toNat + n ≤ 4095) :
    (if s.dataRangeFaults (n + 1) then raiseHalt .dataRange i s else o) = o := by
  rw [State.dataRangeFaults_eq_false (by omega)]
  rfl

/-- An instruction whose highest address I + n is beyond Memory halts; its opcode is that of class 0xF with low byte
`nn`. -/
theorem rangeChecked_haltsWith (nn : Byte) (hi : encode i = encodeI 0xF x nn) (h : s.I.toNat + n > 4095)
    (ha : s.pc = a + 2#16) :
    HaltsWith (if s.dataRangeFaults (n + 1) then raiseHalt .dataRange i s else o) s .dataRange a
      (BitVec.ofNat 16 (0xF000 + nn.toNat + x.toNat * 256)) := by
  have hop : encode i = BitVec.ofNat 16 (0xF000 + nn.toNat + x.toNat * 256) :=
    hi.trans (congrArg (BitVec.ofNat 16) (Nat.add_right_comm ..))
  rw [if_pos ((s.dataRangeFaults_iff _).2 ⟨by omega, by omega⟩), ← hop]
  exact raiseHalt_haltsWith .dataRange i ha

end

/-! ### The stores (R123, R124) -/

/-- The frame of a write to Memory. -/
theorem KeepsAllButMemory.of_mem (h : t = { s with mem := t.mem }) : KeepsAllButMemory s t := by
  rw [h]
  exact ⟨fun _ => rfl, rfl, rfl, rfl, ⟨fun _ _ => rfl, rfl⟩, rfl,
    ⟨rfl, rfl, rfl, rfl, rfl, rfl, rfl, rfl, rfl, rfl⟩⟩

end

theorem byte_ofNat_toNat {d : Nat} (h : d < 256) : (BitVec.ofNat 8 d).toNat = d :=
  BitVec.toNat_ofNat d 8 ▸ Nat.mod_eq_of_lt h

theorem hundredsDigit_toNat (b : Byte) : (hundredsDigit b).toNat = b.toNat / 100 :=
  byte_ofNat_toNat (by omega)

theorem tensDigit_toNat (b : Byte) : (tensDigit b).toNat = b.toNat / 10 % 10 :=
  byte_ofNat_toNat (by omega)

theorem onesDigit_toNat (b : Byte) : (onesDigit b).toNat = b.toNat % 10 :=
  byte_ofNat_toNat (by omega)

/-- Settles O22, by whether I + 2 is in Memory: the three stores are at distinct addresses, so none undoes another. -/
theorem bcdStoresThreeDigits : Obligations.BcdStoresThreeDigits := by
  refine fun x s => ⟨fun hin => ?stores, fun hout _ ha => rangeChecked_haltsWith 0x33#8 rfl hout ha⟩
  case stores =>
    have hread := storeBcd_readByte (s.reg x) hin
    refine ⟨_, rangeChecked_of_inRange hin, ?hundreds, ?tens, ?ones, fun k hk => ?others,
      .of_mem (storeBcd_eq ..)⟩
    case hundreds => rw [hread, if_pos rfl, hundredsDigit_toNat]
    case tens => rw [hread, if_neg (by omega), if_pos rfl, tensDigit_toNat]
    case ones => rw [hread, if_neg (by omega), if_neg (by omega), if_pos rfl, onesDigit_toNat]
    case others => rw [hread, if_neg (by omega), if_neg (by omega), if_neg (by omega)]

/-- Settles O23, by whether I + X is in Memory: the store loop writes V[k] at I + k for each k up to X. -/
theorem storeRegistersAtIndex : Obligations.StoreRegistersAtIndex := by
  refine fun x s => ⟨fun hin => ?stores, fun hout _ ha => rangeChecked_haltsWith 0x55#8 rfl hout ha⟩
  case stores =>
    have hall : s.I.toNat + (x.toNat + 1) ≤ 4096 := by omega
    refine ⟨_, exec_storeRegs_of_inRange hin, fun k hk => ?stored, fun k hk => ?others, .of_mem (storeLoop_eq ..)⟩
    case stored => exact storeLoop_readByte_reg hall (Nat.lt_succ_of_le hk)
    case others => rw [storeLoop_readByte hall, if_neg (by omega)]

/-! ### The loads (R125) -/

/-- Settles O24, by whether I + X is in Memory: the load loop writes V0 to Vx, and neither I nor Memory. -/
theorem loadRegistersFromIndex : Obligations.LoadRegistersFromIndex := by
  refine fun x s => ⟨fun hin => ?loads, fun hout _ ha => rangeChecked_haltsWith 0x65#8 rfl hout ha⟩
  case loads =>
    have hread := loadLoop_reg s x.isLt
    refine ⟨_, rangeChecked_of_inRange hin, fun k hk => ?loaded, fun k hk => ?others, .of_V (loadLoop_eq ..)⟩
    case loaded => rw [hread, if_pos (Nat.lt_succ_of_le hk)]
    case others => rw [hread, if_neg (mt Nat.le_of_lt_succ hk)]

end Sys2Proof.Machine
end

section
/-! PROOFS of the display family (43_display.md R140 to R146): CLS, and what DRW does to the pixels and VF, for X or Y
naming VF by a simulation of R141's algorithm, and otherwise by the list of the pixels the sprite lies on. -/

namespace Sys2Proof.Machine

/-! ### The frame of the two instructions, and the refresh they owe (R140, R144, R146) -/

section
variable {s t : State} {x y : RegIdx} {n : BitVec 4}

/-- The frame of a drawing instruction, which writes no register but VF. -/
theorem KeepsAllButDrawing.of_V_disp (h : t = { s with V := t.V, disp := t.disp, refreshOwed := t.refreshOwed })
    (hreg : ∀ k, k ≠ VF → t.reg k = s.reg k) : KeepsAllButDrawing s t := by
  rw [h]
  exact ⟨hreg, rfl, rfl, rfl, fun _ _ => rfl, rfl, ⟨rfl, rfl, rfl, rfl, rfl, rfl, rfl, rfl, rfl, rfl⟩⟩

theorem drawSprite_keepsAllButDrawing (x y : RegIdx) (n : Nat) (s : State) :
    KeepsAllButDrawing s (drawSprite x y n s).markRefresh :=
  .of_V_disp (by rw [drawSprite_eq]; rfl) fun _ hk => drawSprite_reg n s hk

/-- Settles O27: CLS writes the blank buffer and no register. -/
theorem clearTurnsEveryPixelOff : Obligations.ClearTurnsEveryPixelOff := fun _ =>
  ⟨_, rfl, Display.pixel_blank, rfl, rfl, .of_V_disp rfl fun _ _ => rfl⟩

theorem exec_drw_of_inRange (x y : RegIdx) (h : n.toNat = 0 ∨ s.I.toNat + n.toNat - 1 ≤ 4095) :
    exec (.drw x y n) s = .next (drawSprite x y n.toNat s).markRefresh := by
  have hr : ¬ s.dataRangeFaults n.toNat = true := by rw [State.dataRangeFaults_iff]; omega
  exact if_neg hr

theorem exec_drw_of_beyond (x y : RegIdx) (hn : 1 ≤ n.toNat) (h : s.I.toNat + n.toNat - 1 > 4095) :
    exec (.drw x y n) s = raiseHalt .dataRange (.drw x y n) s := by
  have hr : s.dataRangeFaults n.toNat = true := (s.dataRangeFaults_iff _).2 ⟨hn, h⟩
  exact if_pos hr

/-- Settles O31: the loop over no rows is the state itself. -/
theorem drawOfNoRowsPlotsNothing : Obligations.DrawOfNoRowsPlotsNothing := fun x y s =>
  ⟨_, exec_drw_of_inRange x y (.inl rfl), fun _ _ => rfl, fun _ => rfl, rfl, drawSprite_keepsAllButDrawing x y 0 s⟩

/-- Settles O37: a halt keeps the flag, and a completed instruction adds to it that it draws. -/
theorem refreshOwedExactlyByDrawing : Obligations.RefreshOwedExactlyByDrawing := by
  intro i s t h hs hr
  rcases exec_cases i s with ⟨c, -, -, he⟩ | ⟨u, he, hu⟩
  · obtain rfl := Host.Outcome.next.inj ((he.trans (raiseHalt_def c i s)).symm.trans h)
    simp [hr]
  · obtain rfl := Host.Outcome.next.inj (he.symm.trans h)
    simp [hu.refresh, hu.control.sched, hs, hr]

end

/-! ### The draw loop with the sprite's bytes read beforehand (R141) -/

/-- Drawing writes neither Memory nor I, so the byte of the last row is the one at I + n before the draw. -/
theorem drawSprite_succ_eq_row (x y : RegIdx) (n : Nat) (s : State) :
    drawSprite x y (n + 1) s =
      bitOrder.foldl (plotBit x y n (s.readByte (s.I.toNat + n))) (drawSprite x y n s) := by
  rw [drawSprite_succ, plotRow, drawSprite_readByte, State.dataAddr, drawSprite_I]

theorem drawSprite_eq_foldl (x y : RegIdx) (n : Nat) (s : State) :
    drawSprite x y n s = (List.range n).foldl
      (fun t r => bitOrder.foldl (plotBit x y r (s.readByte (s.I.toNat + r))) t) s := by
  induction n with
  | zero => rfl
  | succ n ih => rw [drawSprite_succ_eq_row, ih, List.range_succ, List.foldl_append, List.foldl_cons, List.foldl_nil]

theorem plotBit_reg {x y k : RegIdx} (r : Nat) (byte : Byte) (s : State) (b : Nat) (h : k ≠ VF) :
    (plotBit x y r byte s b).reg k = s.reg k :=
  plotBits_reg r byte [b] s h

/-! ### The simulation of R141's algorithm on pictures, X or Y naming VF included (R142) -/

theorem collisionFlag_toNat (old new : Bool) :
    (collisionFlag old new).toNat = if old = true ∧ new = false then 1 else 0 := by
  cases old <;> cases new <;> rfl

/-- The picture holds the state's VF and pixels; vx and vy are the state's registers, where those are not VF. -/
structure Shows (x y : RegIdx) (vx vy : Nat) (p : Picture) (s : State) : Prop where
  vf : p.vf = (s.reg VF).toNat
  on : ∀ (r : Fin 32) (c : Fin 64), p.on r.val c.val = s.disp.pixel r c
  x : x ≠ VF → vx = (s.reg x).toNat
  y : y ≠ VF → vy = (s.reg y).toNat

section
variable {x y : RegIdx} {vx vy : Nat} {p : Picture} {s : State}

/-- The value from which the algorithm takes a coordinate: a register as it is now, of which only VF changes. -/
theorem picture_reg {k : RegIdx} {v : Nat} (hvf : p.vf = (s.reg VF).toNat) (hk : k ≠ VF → v = (s.reg k).toNat) :
    (if k = VF then p.vf else v) = (s.reg k).toNat := by
  split
  next h => rw [hvf, h]
  next h => exact hk h

theorem Shows.plot (h : Shows x y vx vy p s) (r : Nat) (byte : Byte) (b : Nat) :
    Shows x y vx vy (p.plot x y vx vy r byte.toNat b) (plotBit x y r byte s b) := by
  have hcol : ((if x = VF then p.vf else vx) + (7 - b)) % 64 = (spriteCol (s.reg x) b).val := by
    rw [picture_reg h.vf h.x, spriteCol_val]
  have hrow : ((if y = VF then p.vf else vy) + r) % 32 = (spriteRow (s.reg y) r).val := by
    rw [picture_reg h.vf h.y, spriteRow_val]
  have hbit : decide (byte.toNat / 2 ^ b % 2 = 1) = byte.getLsbD b := Nat.testBit_eq_decide_div_mod_eq.symm
  refine ⟨?vf, fun r' c' => ?on, fun hx => ?x, fun hy => ?y⟩
  case vf =>
    simp only [Picture.plot, plotBit, hcol, hrow, hbit, h.on, State.reg_setReg_same, collisionFlag_toNat,
      Bool.bne_eq_xor]
  case on =>
    simp only [Picture.plot, plotBit, hcol, hrow, hbit, h.on, State.setReg_disp, State.setPixel_disp,
      Display.pixel_setPixel, Fin.ext_iff, Bool.bne_eq_xor]
  case x => rw [plotBit_reg _ _ _ _ hx, h.x hx]
  case y => rw [plotBit_reg _ _ _ _ hy, h.y hy]

/-- The loops over rows and bits run in lockstep. -/
theorem Shows.draw (h : Shows x y vx vy p s) (n : Nat) :
    Shows x y vx vy (p.draw x y vx vy (fun r => (s.readByte (s.I.toNat + r)).toNat) n) (drawSprite x y n s) := by
  rw [drawSprite_eq_foldl]
  exact List.foldl_rel h fun r _ _ _ hrow => List.foldl_rel hrow fun b _ _ _ hbit => hbit.plot r _ b

end

/-- Settles O28, by whether the sprite's last byte is in Memory. -/
theorem drawRunsTheAlgorithm : Obligations.DrawRunsTheAlgorithm := by
  refine fun x y n s => ⟨fun hin => ?draws, fun hn hout a ha => ?halts⟩
  case draws =>
    refine ⟨_, exec_drw_of_inRange x y hin, fun p hvf hon => ?_, rfl, drawSprite_keepsAllButDrawing ..⟩
    have hp : Shows x y (s.reg x).toNat (s.reg y).toNat p s := ⟨hvf, hon, fun _ => rfl, fun _ => rfl⟩
    have hdraw := hp.draw n.toNat
    exact ⟨hdraw.vf.symm, fun r c => (hdraw.on r c).symm⟩
  case halts => exact exec_drw_of_beyond x y hn hout ▸ raiseHalt_haltsWith .dataRange (.drw x y n) ha

/-! ### With X and Y not VF: the sprite as a list of plots, known before the draw (R142) -/

/-- A pixel's place and the sprite bit plotted there. -/
abbrev Plot := (Fin 32 × Fin 64) × Bool

/-- The pixel is exclusive-ored with the bit, and VF is its collision (R141). -/
def State.plot (s : State) (q : Plot) : State :=
  let old := s.disp.pixel q.1.1 q.1.2
  (s.setPixel q.1.1 q.1.2 (old ^^ q.2)).setReg VF (collisionFlag old (old ^^ q.2))

/-- Bit `b` of the sprite row `k` of a sprite with its top-left pixel at Vx, Vy. -/
def spritePlot (vx vy : Byte) (bytes : Nat → Byte) (k b : Nat) : Plot :=
  ((spriteRow vy k, spriteCol vx b), (bytes k).getLsbD b)

/-- All bits of a sprite of `n` rows, in plotting order. -/
def spritePlots (vx vy : Byte) (bytes : Nat → Byte) (n : Nat) : List Plot :=
  (List.range n ×ˢ bitOrder).map fun p => spritePlot vx vy bytes p.1 p.2

/-- The sprite a DRW Vx,Vy of `n` rows plots in this state. -/
def State.sprite (s : State) (x y : RegIdx) (n : Nat) : List Plot :=
  spritePlots (s.reg x) (s.reg y) (fun k => s.readByte (s.I.toNat + k)) n

section
variable {x y : RegIdx} {vx vy : Byte} {bytes : Nat → Byte} {n : Nat}

/-- The sprite bits by their column, left to right. -/
theorem mem_bitOrder {b : Nat} : b ∈ bitOrder ↔ ∃ j, j < 8 ∧ 7 - j = b := by
  have hcols : bitOrder = (List.range 8).map (7 - ·) := rfl
  simp only [hcols, List.mem_map, List.mem_range]

theorem mem_spritePlots {q : Plot} :
    q ∈ spritePlots vx vy bytes n ↔ ∃ k j, k < n ∧ j < 8 ∧ spritePlot vx vy bytes k (7 - j) = q := by
  simp only [spritePlots, List.mem_map, Prod.exists, List.mem_product, List.mem_range, mem_bitOrder]
  constructor
  · rintro ⟨k, b, ⟨hk, j, hj, rfl⟩, hq⟩
    exact ⟨k, j, hk, hj, hq⟩
  · rintro ⟨k, j, hk, hj, hq⟩
    exact ⟨k, 7 - j, ⟨hk, j, hj, rfl⟩, hq⟩

/-- A sprite is smaller than the screen, so no pixel is plotted twice. -/
theorem spritePlots_nodup (hn : n ≤ 32) : ((spritePlots vx vy bytes n).map Prod.fst).Nodup := by
  have hpairs : (List.range n ×ˢ bitOrder).Nodup := List.nodup_range.product (by decide)
  rw [spritePlots, List.map_map]
  refine hpairs.map_on fun ⟨k, b⟩ hp ⟨k', b'⟩ hp' h => ?_
  simp only [List.mem_product, List.mem_range, mem_bitOrder] at hp hp'
  obtain ⟨hk, j, hj, rfl⟩ := hp
  obtain ⟨hk', j', hj', rfl⟩ := hp'
  simp only [Function.comp, spritePlot, Prod.mk.injEq, Fin.ext_iff, spriteRow_val, spriteCol_val] at h ⊢
  omega

theorem spritePlots_succ (vx vy : Byte) (bytes : Nat → Byte) (n : Nat) :
    spritePlots vx vy bytes (n + 1) = spritePlots vx vy bytes n ++ bitOrder.map (spritePlot vx vy bytes n) := by
  simp [spritePlots, List.range_succ, SProd.sprod, List.product]

/-- The last bit plotted is bit 0 of the last row. -/
theorem spritePlots_succ_eq_append_last (vx vy : Byte) (bytes : Nat → Byte) (n : Nat) :
    ∃ ps, spritePlots vx vy bytes (n + 1) = ps ++ [spritePlot vx vy bytes n 0] := by
  refine ⟨spritePlots vx vy bytes n ++ [7, 6, 5, 4, 3, 2, 1].map (spritePlot vx vy bytes n), ?_⟩
  rw [spritePlots_succ, List.append_assoc]
  rfl

/-- Plotting writes VF only, so every bit is placed from the same Vx and Vy. -/
theorem plotBits_eq_plots (hx : x ≠ VF) (hy : y ≠ VF) (k : Nat) (bs : List Nat) {s : State}
    (hvx : s.reg x = vx) (hvy : s.reg y = vy) :
    bs.foldl (plotBit x y k (bytes k)) s = (bs.map (spritePlot vx vy bytes k)).foldl State.plot s := by
  induction bs generalizing s with
  | nil => rfl
  | cons b bs ih =>
    have hplot : plotBit x y k (bytes k) s b = s.plot (spritePlot vx vy bytes k b) := by subst hvx hvy; rfl
    rw [List.map_cons, List.foldl_cons, List.foldl_cons, ← hplot]
    exact ih ((plotBit_reg _ _ _ _ hx).trans hvx) ((plotBit_reg _ _ _ _ hy).trans hvy)

theorem drawSprite_eq_plots (hx : x ≠ VF) (hy : y ≠ VF) (n : Nat) (s : State) :
    drawSprite x y n s = (s.sprite x y n).foldl State.plot s := by
  rw [State.sprite]
  induction n with
  | zero => rfl
  | succ n ih =>
    rw [drawSprite_succ_eq_row, spritePlots_succ, List.foldl_append, ← ih]
    exact plotBits_eq_plots (bytes := fun k => s.readByte (s.I.toNat + k)) hx hy n bitOrder
      (drawSprite_reg n s hx) (drawSprite_reg n s hy)

end

/-! ### What plots at distinct places do (R142, R143) -/

section
variable {ps : List Plot} {q : Plot}

theorem State.plot_pixel (s : State) (q : Plot) (r : Fin 32) (c : Fin 64) :
    (s.plot q).disp.pixel r c = if (r, c) = q.1 then s.disp.pixel r c ^^ q.2 else s.disp.pixel r c := by
  simp only [State.plot, State.setReg_disp, State.setPixel_disp, Display.pixel_setPixel, Prod.ext_iff]
  split
  next h => rw [h.1, h.2]
  next => rfl

/-- The pixels under set bits are inverted, each once. -/
theorem plots_pixel (h : (ps.map Prod.fst).Nodup) (s : State) (r : Fin 32) (c : Fin 64) :
    (ps.foldl State.plot s).disp.pixel r c = (s.disp.pixel r c ^^ decide (((r, c), true) ∈ ps)) := by
  induction ps generalizing s with
  | nil => simp
  | cons q ps ih =>
    obtain ⟨hq, hps⟩ := List.nodup_cons.1 h
    obtain ⟨place, bit⟩ := q
    rw [List.foldl_cons, ih hps, State.plot_pixel]
    by_cases hrc : (r, c) = place
    · have hout : ((r, c), true) ∉ ps := fun hm => hq (List.mem_map.2 ⟨_, hm, hrc⟩)
      cases bit <;> simp [hrc, hrc ▸ hout]
    · simp [hrc]

/-- The last plot finds its pixel as it was before the first. -/
theorem plots_flag (h : ((ps ++ [q]).map Prod.fst).Nodup) (s : State) :
    ((ps ++ [q]).foldl State.plot s).reg VF = flagByte (s.disp.pixel q.1.1 q.1.2 && q.2) := by
  rw [List.map_append, List.nodup_append_comm] at h
  obtain ⟨hq, hps⟩ := List.nodup_cons.1 h
  have hout : ((q.1.1, q.1.2), true) ∉ ps := fun hm => hq (List.mem_map.2 ⟨_, hm, rfl⟩)
  have hold : (ps.foldl State.plot s).disp.pixel q.1.1 q.1.2 = s.disp.pixel q.1.1 q.1.2 := by
    rw [plots_pixel hps, decide_eq_false hout, Bool.xor_false]
  rw [List.foldl_append, List.foldl_cons, List.foldl_nil, State.plot, State.reg_setReg_same, hold, collisionFlag]
  cases s.disp.pixel q.1.1 q.1.2 <;> simp

end

/-! ### What DRW does to the pixels and to VF (R142, R143, R145) -/

section
variable {x y : RegIdx}

theorem drawSprite_pixel (hx : x ≠ VF) (hy : y ≠ VF) (n : BitVec 4) (s : State) (r : Fin 32) (c : Fin 64) :
    (drawSprite x y n.toNat s).disp.pixel r c =
      (s.disp.pixel r c ^^ decide (((r, c), true) ∈ s.sprite x y n.toNat)) := by
  rw [drawSprite_eq_plots hx hy]
  exact plots_pixel (spritePlots_nodup (by omega)) s r c

theorem drawSprite_flag (hx : x ≠ VF) (hy : y ≠ VF) {n : Nat} (hn : n + 1 ≤ 32) (s : State) :
    (drawSprite x y (n + 1) s).reg VF = flagByte
      (s.disp.pixel (spriteRow (s.reg y) n) (spriteCol (s.reg x) 0) && (s.readByte (s.I.toNat + n)).getLsbD 0) := by
  obtain ⟨ps, hps⟩ := spritePlots_succ_eq_append_last (s.reg x) (s.reg y) (fun k => s.readByte (s.I.toNat + k)) n
  rw [drawSprite_eq_plots hx hy, State.sprite, hps]
  exact plots_flag (hps ▸ spritePlots_nodup hn) s

/-- A set sprite bit lies on a pixel: row k, column j of the sprite, counted from Vy and Vx and wrapped. -/
theorem mem_sprite_iff (s : State) (n : Nat) (r : Fin 32) (c : Fin 64) :
    ((r, c), true) ∈ s.sprite x y n ↔ ∃ k j : Nat, k < n ∧ j < 8 ∧ r.val = ((s.reg y).toNat + k) % 32 ∧
      c.val = ((s.reg x).toNat + j) % 64 ∧ (s.readByte (s.I.toNat + k)).getLsbD (7 - j) = true := by
  rw [State.sprite, mem_spritePlots]
  refine exists_congr fun k => exists_congr fun j => and_congr_right fun _ => and_congr_right fun hj => ?_
  have hcol : 7 - (7 - j) = j := by omega
  simp only [spritePlot, Prod.mk.injEq, Fin.ext_iff, spriteRow_val, spriteCol_val, hcol, and_assoc,
    eq_comm (b := r.val), eq_comm (b := c.val)]

/-- A sprite is its position and its bytes. -/
theorem sprite_congr {s s' : State} {n : Nat} (hI : s'.I = s.I) (hx : s'.reg x = s.reg x) (hy : s'.reg y = s.reg y)
    (hbytes : ∀ k, k < n → s'.readByte (s.I.toNat + k) = s.readByte (s.I.toNat + k)) :
    s'.sprite x y n = s.sprite x y n := by
  rw [State.sprite, State.sprite, hI, hx, hy]
  refine List.map_congr_left fun p hp => ?_
  have hk : p.1 < n := List.mem_range.1 (List.mem_product.1 hp).1
  simp only [spritePlot, hbytes p.1 hk]

end

/-- Settles O29: the pixel is exclusive-ored with whether a set sprite bit lies on it. -/
theorem drawXorsTheSpriteWrapped : Obligations.DrawXorsTheSpriteWrapped := by
  refine fun x y n s hx hy hin => ⟨_, exec_drw_of_inRange x y hin, fun r c => ?_⟩
  have hpixel := drawSprite_pixel hx hy n s r c
  rw [← mem_sprite_iff]
  refine ⟨fun hon => ?on, fun hoff => ?off⟩
  case on => rw [State.markRefresh_disp, hpixel, decide_eq_true hon, Bool.xor_true]
  case off => rw [State.markRefresh_disp, hpixel, decide_eq_false hoff, Bool.xor_false]

/-- Settles O30: the last bit plotted is bit 0 of byte N - 1, seven columns right of Vx. -/
theorem collisionFlagIsTheLastPixels : Obligations.CollisionFlagIsTheLastPixels := by
  refine fun x y n s hx hy hn hin => ⟨_, exec_drw_of_inRange x y (.inr hin), fun r c hr hc => ?_⟩
  obtain ⟨m, hm⟩ := Nat.exists_eq_add_of_le' hn
  rw [hm] at hr ⊢
  have hrow : r = spriteRow (s.reg y) m := Fin.ext hr
  have hcol : c = spriteCol (s.reg x) 0 := Fin.ext hc
  have hbit (b : Byte) : b.getLsbD 0 = decide (b.toNat % 2 = 1) := Nat.testBit_zero _
  have hflag : ((drawSprite x y (m + 1) s).reg VF).toNat =
      if (s.readByte (s.I.toNat + m)).toNat % 2 = 1 ∧ s.disp.pixel r c = true then 1 else 0 := by
    rw [drawSprite_flag hx hy (by omega), ← hrow, ← hcol, hbit, Bool.and_comm, ← flagByte_toNat, Bool.decide_and,
      Bool.decide_eq_true]
  exact ⟨fun hit => hflag.trans (if_pos hit), fun hmiss => hflag.trans (if_neg hmiss)⟩

/-- Settles O32: the second draw plots the same sprite, and exclusive or undoes itself. -/
theorem drawingTwiceRestoresTheBuffer : Obligations.DrawingTwiceRestoresTheBuffer := by
  refine fun x y n s hx hy hin => ⟨_, exec_drw_of_inRange x y hin, fun s' hdisp hI hvx hvy hbytes => ?_⟩
  refine ⟨_, exec_drw_of_inRange x y (hI.symm ▸ hin), Display.ext_of_pixel fun r c => ?_⟩
  rw [State.markRefresh_disp, drawSprite_pixel hx hy, sprite_congr hI hvx hvy hbytes, hdisp, State.markRefresh_disp,
    drawSprite_pixel hx hy, Bool.xor_assoc, Bool.xor_self, Bool.xor_false]

end Sys2Proof.Machine
end

section
/-! PROOFS of the unrecognised family (44_unrecognized.md R150 to R153): which opcodes decode to the no-op, and that the
cycle of one is the fetch advance and a diagnostic. -/

namespace Sys2Proof

/-- Settles O6: a case split on the class, which leaves of the opcode map the rows of that class. -/
theorem unrecognizedSpaceByClass : Obligations.UnrecognizedSpaceByClass := by
  intro op
  have hclass := fieldClass_lt op
  have hlow : (fieldClass op).toNat ≠ 0 → op.toNat ≠ 0x00E0 ∧ op.toNat ≠ 0x00EE := by
    rw [fieldClass_toNat]
    omega
  have hnibble : (fieldN op).toNat ∈ [0x7, 0x8, 0x9, 0xA, 0xB, 0xC, 0xD, 0xF] ↔
      (fieldN op).toNat ∉ [0x0, 0x1, 0x2, 0x3, 0x4, 0x5, 0x6, 0xE] := by
    have hlt := (fieldN op).isLt
    simp only [List.mem_cons, List.not_mem_nil, or_false]
    omega
  rw [decodeOpcode_eq_unrecognized_iff, ← Bool.not_eq_true, inMap_iff, ← fieldClass_toNat, ← fieldN_toNat,
    ← fieldNN_toNat, hnibble]
  interval_cases (fieldClass op).toNat
  · simp
  all_goals simp [hlow]

end Sys2Proof

namespace Sys2Proof.Machine

theorem exec_unrecognized (op : Word) (s : State) : exec (.unrecognized op) s = .next s := rfl

/-- The end of a cycle that drew nothing emits the diagnostic alone (R164). -/
theorem finishCycle_of_not_refreshOwed {op : Word} {i : Instr} {s : State} (hrun : s.sched ≠ .halted)
    (howed : s.refreshOwed = false) : finishCycle op i s = rearm (emitDiag op i s) := by
  have howed' : (emitDiag op i s).refreshOwed = false := howed
  simp [finishCycle_running hrun, renderHandOff, howed']

theorem cycle_of_not_inMap {s : State} {op : Word} (hfetch : s.fetchWord = some op) (hmap : inMap op = false) :
    cycle s = .next (finishCycle op (.unrecognized op) s.advancePc) := by
  have hdecode := decodeOpcode_of_not_inMap hmap
  rw [cycle_next hfetch (hdecode ▸ exec_unrecognized op s.advancePc), hdecode]

/-- Settles O33: the step is the cycle of the no-op, and that writes pc, armed and the output port only. -/
theorem unrecognizedOpcodeIsNoOp : Obligations.UnrecognizedOpcodeIsNoOp := by
  refine ⟨exec_unrecognized, fun s op hturn henabled howed hfetch hmap => ?_⟩
  have hrun : s.sched ≠ .halted := (s.cycleEnabled_iff.1 henabled).2
  have hstep : step s = .next (rearm (emitDiag op (.unrecognized op) s.begin.advancePc)) :=
    calc step s
        = cycle s.begin := (step_coreTurn hturn).trans (coreStep_enabled henabled)
      _ = .next (finishCycle op (.unrecognized op) s.begin.advancePc) := cycle_of_not_inMap (s := s.begin) hfetch hmap
      _ = _ := congrArg _ (finishCycle_of_not_refreshOwed hrun howed)
  exact ⟨_, hstep, ⟨rfl, rfl, rfl, rfl, rfl, rfl⟩, rfl, howed, rfl, rfl, rfl, rfl, rfl⟩

end Sys2Proof.Machine
end

section
/-! PROOFS of the cycle and scheduler family (48_cycle_scheduler.md R160 to R174): what a cycle runs, emits and arms, the
idle core, the start and toggle events, and the two runs that settle at once, a jump to itself and a paused machine. -/

namespace Sys2Proof.Machine

/-! ### One cycle (R160 to R166) -/

theorem step_of_cycleEnabled {s : State} (hturn : s.coreTurn) (henabled : s.cycleEnabled = true) :
    step s = cycle s.begin :=
  (step_coreTurn hturn).trans (coreStep_enabled henabled)

@[simp] theorem finishCycle_sched (op : Word) (i : Instr) (s : State) : (finishCycle op i s).sched = s.sched := by
  rw [finishCycle_eq]

@[simp] theorem finishCycle_disp (op : Word) (i : Instr) (s : State) : (finishCycle op i s).disp = s.disp := by
  rw [finishCycle_eq]

@[simp] theorem finishCycle_hostActions (op : Word) (i : Instr) (s : State) :
    (finishCycle op i s).hostActions = s.hostActions := by
  rw [finishCycle_eq]

/-- Settles O38: the bytes at pc are the fetched opcode, and the cycle executes what it decodes to. -/
theorem stepRunsTheDecodedInstruction : Obligations.StepRunsTheDecodedInstruction := by
  intro s i hturn henabled hpc hdecode
  refine ⟨State.advancePc_pc _, ?_⟩
  rw [decodeBytes_pair] at hdecode
  cases hdecode
  have hfetch := State.fetchWord_some (s := s.begin) (show s.pc.toNat + 1 < 4096 by omega)
  obtain ⟨t, ht⟩ := exec_answers (decodeOpcode (wordOfBytes (s.readByte s.pc.toNat) (s.readByte (s.pc.toNat + 1))))
    s.begin.advancePc
  rw [step_of_cycleEnabled hturn henabled, cycle_next hfetch ht, ht]
  rfl

/-- Settles O39: a cycle that halts is the halt entry; one that completes owes a refresh exactly when it drew. -/
theorem cycleEmitsAndReschedules : Obligations.CycleEmitsAndReschedules := by
  intro s t op hturn henabled howed hfetch hstep
  have hcycle : cycle s.begin = .next t := (step_of_cycleEnabled hturn henabled).symm.trans hstep
  have hrun : s.sched ≠ .halted := (s.cycleEnabled_iff.1 henabled).2
  rcases cycle_cases s.begin with ⟨hnone, -⟩ | ⟨w, hw, ⟨c, -, -, -, hc⟩ | ⟨u, -, hu, hc⟩⟩
  case inl => cases hnone.symm.trans hfetch
  all_goals obtain rfl := Host.Outcome.next.inj (hc.symm.trans hcycle)
  case inr.inl => exact ⟨howed, fun h => absurd rfl h, fun _ => ⟨rfl, rfl⟩⟩
  case inr.inr =>
    obtain rfl := Option.some.inj (hw.symm.trans hfetch)
    have hsched : u.sched = s.sched := hu.control.sched
    have hurun : u.sched ≠ .halted := hsched ▸ hrun
    have hemitted : u.emitted = [] := hu.control.emitted
    have hdrawn : u.refreshOwed = drawsDisplay (decodeOpcode w) := by rw [hu.refresh]; simp [howed]
    refine ⟨finishCycle_refreshOwed hurun, fun _ => ⟨?emitted, ?sched, ?armed⟩, fun h => absurd h ?running⟩
    case emitted => rw [finishCycle_emitted hurun, hemitted, hdrawn, finishCycle_disp, List.nil_append]
    case sched => rw [finishCycle_sched, hsched]
    case armed => rw [finishCycle_armed hurun, hsched, decide_eq_true_iff]
    case running => rwa [finishCycle_sched]

/-! ### The idle core (R173) -/

theorem State.cycleEnabled_eq_false {s : State} (h : s.armed = false) : s.cycleEnabled = false := by
  simp [State.cycleEnabled, h]

/-- Settles O43: an idle core's turn is the start of the step alone. -/
theorem coreIsIdleUnlessArmed : Obligations.CoreIsIdleUnlessArmed := fun _ hturn harmed =>
  (step_coreTurn hturn).trans (coreStep_idle (State.cycleEnabled_eq_false harmed))

theorem stepN_of_fixed {s : State} (h : step s = .next s) (n : Nat) : stepN n s = .next s := by
  induction n with
  | zero => rfl
  | succ n ih => rw [stepN_succ h, ih]

/-! ### A jump to itself (R174) -/

theorem decodeOpcode_jump {op a : Word} (ha : a.toNat < 4096) (hop : op.toNat = 0x1000 + a.toNat) :
    ∃ nnn : Addr12, decodeOpcode op = .jp nnn ∧ zextAddr nnn = a := by
  have hclass : (fieldClass op).toNat = 1 := by rw [fieldClass_toNat]; omega
  refine ⟨fieldNNN op, by simp only [decodeOpcode, decodeOpcodeWith, hclass], BitVec.eq_of_toNat_eq ?_⟩
  rw [zextAddr_toNat, fieldNNN_toNat]
  omega

theorem rearm_of_armed {s : State} (hrun : s.sched = .running) (harmed : s.armed = true) : rearm s = s := by
  have h : decide (s.sched = .running) = s.armed := by simp [hrun, harmed]
  rw [rearm, h]

/-- The one step of the loop: the jump undoes the fetch advance, and the cycle's end arms what was armed. -/
theorem step_of_jumpToItself {s : State} {op : Word} (hactions : s.hostActions = []) (harmed : s.armed = true)
    (hrun : s.sched = .running) (howed : s.refreshOwed = false) (hfetch : s.fetchWord = some op)
    (hop : op.toNat = 0x1000 + s.pc.toNat) :
    step s = .next { s with emitted := [.diag op true] } := by
  have henabled : s.cycleEnabled = true := s.cycleEnabled_iff.2 ⟨harmed, by simp [hrun]⟩
  have hpc := State.pc_of_fetchWord hfetch
  obtain ⟨nnn, hdecode, htarget⟩ := decodeOpcode_jump (by omega) hop
  have hexec : exec (decodeOpcode op) s.begin.advancePc = .next s.begin :=
    calc exec (decodeOpcode op) s.begin.advancePc
        = .next (s.begin.advancePc.setPc (zextAddr nnn)) := by rw [hdecode]; rfl
      _ = .next s.begin := by rw [htarget]; rfl
  have hcycle : cycle s.begin = .next (finishCycle op (.jp nnn) s.begin) := by
    rw [cycle_next (s := s.begin) hfetch hexec, hdecode]
  have hfinish : finishCycle op (.jp nnn) s.begin = emitDiag op (.jp nnn) s.begin := by
    rw [finishCycle_of_not_refreshOwed (s := s.begin) (by simp [hrun]) howed,
      rearm_of_armed (s := emitDiag op (.jp nnn) s.begin) hrun harmed]
  rw [step_of_cycleEnabled (.inl hactions) henabled, hcycle, hfinish, State.begin_of_nil hactions]
  rfl

/-- Settles O44: the step's next state satisfies the same hypotheses, so it is its own next state. -/
theorem jumpToItselfSpins : Obligations.JumpToItselfSpins := by
  intro s op hactions harmed hrun howed hfetch hop n
  rw [stepN_succ (step_of_jumpToItself hactions harmed hrun howed hfetch hop)]
  exact stepN_of_fixed (step_of_jumpToItself (s := { s with emitted := [.diag op true] })
    hactions harmed hrun howed hfetch hop) n

/-! ### The extra cycle of a paused machine (R169) -/

/-- The cycle that still runs arms no other, whether it halts or completes. -/
theorem cycle_of_paused {s t : State} (hpaused : s.sched = .paused) (hc : cycle s = .next t) :
    t.armed = false ∧ t.hostActions = s.hostActions := by
  rcases cycle_cases s with ⟨-, e⟩ | ⟨op, -, ⟨c, -, -, -, e⟩ | ⟨u, -, hu, e⟩⟩ <;>
    obtain rfl := Host.Outcome.next.inj (e.symm.trans hc)
  case inl | inr.inl => exact ⟨rfl, rfl⟩
  case inr.inr =>
    have hsched : u.sched = .paused := hu.control.sched.trans hpaused
    refine ⟨?_, (finishCycle_hostActions ..).trans hu.control.hostActions⟩
    simp [finishCycle_armed, hsched]

theorem coreStep_of_paused {s t : State} (hpaused : s.sched = .paused) (hc : coreStep s = .next t) :
    t.armed = false ∧ t.hostActions = s.hostActions := by
  cases harmed : s.armed with
  | true =>
    have henabled : s.cycleEnabled = true := s.cycleEnabled_iff.2 ⟨harmed, by simp [hpaused]⟩
    exact cycle_of_paused hpaused (coreStep_enabled henabled ▸ hc)
  | false =>
    obtain rfl := Host.Outcome.next.inj ((coreStep_idle (State.cycleEnabled_eq_false harmed)).symm.trans hc)
    exact ⟨harmed, rfl⟩

theorem step_idle {s : State} (hactions : s.hostActions = []) (harmed : s.armed = false) :
    step s = .next s.clearEmitted :=
  (coreIsIdleUnlessArmed s (.inl hactions) harmed).trans (congrArg _ (State.begin_of_nil hactions))

/-- Settles O50: after the step no cycle is armed and no action pending, so the core idles for ever. -/
theorem pausedMachineRunsAtMostOneMoreCycle : Obligations.PausedMachineRunsAtMostOneMoreCycle := by
  intro s hpaused hactions
  have hturn : step s = coreStep s.begin := step_coreTurn (.inl hactions)
  obtain ⟨t, ht⟩ := coreStep_answers s.begin
  obtain ⟨harmed, hkept⟩ := coreStep_of_paused (s := s.begin) hpaused ht
  have hnil : t.hostActions = [] := hkept.trans (congrArg List.tail hactions)
  refine ⟨t, hturn.trans ht, harmed, fun n => ?_⟩
  rw [stepN_succ (step_idle hnil harmed)]
  exact stepN_of_fixed (step_idle (s := t.clearEmitted) hnil harmed) n

/-! ### The start event and the pause toggle (R168 to R171) -/

theorem KeepsAllButScheduler.of_begin {s t : State}
    (h : t = { s.begin with sched := t.sched, armed := t.armed, started := t.started, pauseDraws := t.pauseDraws }) :
    KeepsAllButScheduler s t := by
  rw [h]
  exact ⟨⟨rfl, rfl, rfl, rfl, rfl, rfl⟩, rfl, rfl, rfl, rfl, rfl, rfl, rfl, rfl⟩

theorem hostStart_of_not_started {s : State} (h : s.started = false) :
    hostStart s = { s with started := true, armed := decide (s.sched = .running) } := by
  simp [hostStart, h]

theorem hostStart_of_started {s : State} (h : s.started = true) : hostStart s = s := by simp [hostStart, h]

/-- Settles O48, by whether the machine is started already. -/
theorem startArmsTheFirstCycle : Obligations.StartArmsTheFirstCycle := by
  intro s rest ha
  have hstep : step s = .next (hostStart s.begin) := step_cons ha
  refine ⟨fun hclosed => ?first, fun hstarted => ?second⟩
  case first =>
    exact ⟨_, hstep.trans (congrArg _ (hostStart_of_not_started (s := s.begin) hclosed)), .of_begin rfl, rfl, rfl,
      decide_eq_true_iff⟩
  case second =>
    rw [hstep, hostStart_of_started (s := s.begin) hstarted, State.begin_of_cons ha]

theorem hostToggle_running {s : State} (h : s.sched = .running) : hostToggle s = hostPause s := by
  simp only [hostToggle, h]

theorem hostToggle_paused {s : State} (h : s.sched = .paused) : hostToggle s = hostResume s := by
  simp only [hostToggle, h]

theorem hostToggle_halted {s : State} (h : s.sched = .halted) : hostToggle s = s := by
  simp only [hostToggle, h]

/-- Settles O49, by the scheduler's state. -/
theorem togglePausesAndResumes : Obligations.TogglePausesAndResumes := by
  intro s rest ha
  have hstep : step s = .next (hostToggle s.begin) := step_cons ha
  cases hsched : s.sched with
  | running =>
    rw [hostToggle_running (s := s.begin) hsched] at hstep
    exact ⟨_, hstep, .of_begin rfl, rfl, fun _ => ⟨rfl, rfl, rfl⟩, nofun, nofun⟩
  | paused =>
    rw [hostToggle_paused (s := s.begin) hsched] at hstep
    refine ⟨_, hstep, .of_begin rfl, rfl, nofun, fun _ => ⟨rfl, fun hs => ?_, fun hs => ?_⟩, nofun⟩
    · simp [hostResume, hs]
    · simp [hostResume, hs]
  | halted =>
    rw [hostToggle_halted (s := s.begin) hsched] at hstep
    exact ⟨_, hstep, .of_begin rfl, rfl, nofun, nofun, fun _ => ⟨hsched, rfl⟩⟩

end Sys2Proof.Machine
end

section
/-! PROOFS of the exceptions family (60_exceptions.md R180 to R189): when DATA_RANGE and FETCH_RANGE are raised, what a step
into Halted leaves, and that only a reset leaves Halted. -/

namespace Sys2Proof.Machine

/-! ### DATA_RANGE (R185) -/

section
variable {s t : State} {o : Host.Outcome State Fault Refusal} {c : FaultCause} {a op : Word}

/-- An instruction that keeps the control state emits no report. -/
theorem KeepsControl.not_haltsWith (ht : o = .next t) (h : KeepsControl s t) : ¬ HaltsWith o s c a op := by
  rintro ⟨u, hu, -, -, -, -, -, -, hemitted, -⟩
  obtain rfl := Host.Outcome.next.inj (ht.symm.trans hu)
  exact List.cons_ne_nil _ _ (List.append_right_eq_self.1 (hemitted.symm.trans h.emitted))

/-- A write to I is no halt. -/
theorem not_haltsWith_of_writesIndex {v : Nat} (h : WritesIndex o s v) : ¬ HaltsWith o s c a op := by
  obtain ⟨t, ht, -, hkept⟩ := h
  exact hkept.control.not_haltsWith ht

/-- An instruction that halts when `p` holds, and keeps the control state when not, halts exactly when `p` holds. -/
theorem haltsWith_iff {p : Prop} (hout : p → HaltsWith o s c a op)
    (hin : ¬ p → ∃ t, o = .next t ∧ KeepsControl s t) : HaltsWith o s c a op ↔ p := by
  refine ⟨fun h => by_contra fun hp => ?_, hout⟩
  obtain ⟨t, ht, hkept⟩ := hin hp
  exact hkept.not_haltsWith ht h

/-- An instruction that checks its range first, and then keeps the control state, halts exactly when its highest address
I + n is beyond Memory. -/
theorem rangeChecked_haltsWith_iff {i : Instr} {x : RegIdx} {n : Nat} (nn : Byte) (hi : encode i = encodeI 0xF x nn)
    (ht : KeepsControl s t) (ha : s.pc = a + 2#16) :
    HaltsWith (if s.dataRangeFaults (n + 1) then raiseHalt .dataRange i s else .next t) s .dataRange a
      (BitVec.ofNat 16 (0xF000 + nn.toNat + x.toNat * 256)) ↔ s.I.toNat + n > 4095 :=
  haltsWith_iff (fun hout => rangeChecked_haltsWith nn hi hout ha)
    fun hin => ⟨t, rangeChecked_of_inRange (Nat.le_of_not_lt hin), ht⟩

/-- DRW has no byte to touch when N = 0. -/
theorem drw_haltsWith_iff (x y : RegIdx) (n : BitVec 4) (ha : s.pc = a + 2#16) :
    HaltsWith (exec (.drw x y n) s) s .dataRange a (encode (.drw x y n)) ↔
      1 ≤ n.toNat ∧ s.I.toNat + n.toNat - 1 > 4095 := by
  refine haltsWith_iff (fun ⟨hn, hout⟩ => ?halts) fun hin => ?draws
  case halts => exact exec_drw_of_beyond x y hn hout ▸ raiseHalt_haltsWith .dataRange (.drw x y n) ha
  case draws => exact ⟨_, exec_drw_of_inRange x y (by omega), (drawSprite_keepsAllButDrawing ..).control⟩

end

/-- Settles O25: the four that access Memory keep the control state once their range is checked, and the three that
compute I only write I. -/
theorem dataRangeHaltsExactly : Obligations.DataRangeHaltsExactly := by
  intro x y n nnn s a ha
  have hbcd : KeepsControl s (storeBcd (s.reg x) s) := (KeepsAllButMemory.of_mem (storeBcd_eq ..)).control
  have hstores : KeepsControl s ((List.range (x.toNat + 1)).foldl storeReg s) :=
    (KeepsAllButMemory.of_mem (storeLoop_eq ..)).control
  have hloads : KeepsControl s ((List.range (x.toNat + 1)).foldl loadReg s) :=
    (KeepsAllButRegs.of_V (loadLoop_eq ..)).control
  obtain ⟨hLdI, hAddI, hLdF⟩ := indexInstructionsWriteI x nnn s
  exact ⟨drw_haltsWith_iff x y n ha, rangeChecked_haltsWith_iff 0x33#8 rfl hbcd ha,
    rangeChecked_haltsWith_iff 0x55#8 rfl hstores ha, rangeChecked_haltsWith_iff 0x65#8 rfl hloads ha,
    fun _ => ⟨not_haltsWith_of_writesIndex hLdI, not_haltsWith_of_writesIndex hAddI,
      not_haltsWith_of_writesIndex hLdF⟩⟩

/-! ### A cycle into Halted (R184, R186) -/

/-- The halt entry at the boundary before the cycle is the halt of an instruction fetched there. -/
theorem haltEntry_haltsWith (s : State) (c : FaultCause) (op : Word) :
    HaltsWith (.next (s.haltEntry c s.pc op)) s c s.pc op :=
  ⟨_, rfl, ⟨rfl, rfl, rfl, rfl, rfl, rfl⟩, rfl, rfl, rfl, rfl, rfl, rfl, rfl, rfl, rfl, rfl, rfl, rfl⟩

/-- A cycle that halts is the halt entry on the state with which it began, with the opcode fetched or 0; the cause is
FETCH_RANGE exactly when none was fetched. -/
theorem cycle_of_halted {s t : State} (hrun : s.sched ≠ .halted) (hc : cycle s = .next t) (ht : t.sched = .halted) :
    ∃ c, c ≠ .none ∧ (c = .fetchRange ↔ s.fetchWord = none) ∧ t = s.haltEntry c s.pc (s.fetchWord.getD 0#16) := by
  rcases cycle_cases s with ⟨hnone, e⟩ | ⟨op, hsome, ⟨c, hne, hcause, -, e⟩ | ⟨u, -, hu, e⟩⟩ <;>
    obtain rfl := Host.Outcome.next.inj (e.symm.trans hc)
  case inl => exact ⟨.fetchRange, nofun, by simp [hnone], by rw [hnone]; rfl⟩
  case inr.inl => exact ⟨c, hne, by simp [hsome, hcause], by rw [hsome, encode_decodeOpcode]; rfl⟩
  case inr.inr => exact absurd (hu.control.sched.symm.trans ((finishCycle_sched ..).symm.trans ht)) hrun

/-- Settles O40: beyond 4094 nothing is fetched, up to 4094 an opcode is. -/
theorem fetchBeyondMemoryHalts : Obligations.FetchBeyondMemoryHalts := by
  intro s hturn henabled
  have hstep := step_of_cycleEnabled hturn henabled
  refine ⟨fun hpc => ?beyond, fun hpc t ht hhalted hcause => ?within⟩
  case beyond =>
    have hnone : s.begin.fetchWord = none := State.fetchWord_none (show ¬ s.pc.toNat + 1 < 4096 by omega)
    rw [hstep, cycle_none hnone]
    exact haltEntry_haltsWith s.begin .fetchRange 0#16
  case within =>
    have hsome := State.fetchWord_some (s := s.begin) (show s.pc.toNat + 1 < 4096 by omega)
    obtain ⟨c, -, hfetch, rfl⟩ :=
      cycle_of_halted (s := s.begin) (s.cycleEnabled_iff.1 henabled).2 (hstep.symm.trans ht) hhalted
    exact Option.some_ne_none _ (hsome.symm.trans (hfetch.1 hcause))

/-! ### A step into Halted (R186, R187) -/

@[simp] theorem hostLoad_sched (addr : Nat) (b : Byte) (s : State) : (hostLoad addr b s).sched = s.sched := by
  unfold hostLoad
  split
  · rfl
  · split <;> rfl

@[simp] theorem hostStart_sched (s : State) : (hostStart s).sched = s.sched := by
  unfold hostStart
  split <;> rfl

theorem hostToggle_sched_ne_halted {s : State} (hrun : s.sched ≠ .halted) : (hostToggle s).sched ≠ .halted := by
  cases hsched : s.sched with
  | running => rw [hostToggle_running hsched]; nofun
  | paused => rw [hostToggle_paused hsched]; nofun
  | halted => exact absurd hsched hrun

theorem coreStep_of_halted {s t : State} (hrun : s.sched ≠ .halted) (hc : coreStep s = .next t)
    (ht : t.sched = .halted) : cycle s = .next t := by
  cases henabled : s.cycleEnabled with
  | true => exact coreStep_enabled henabled ▸ hc
  | false =>
    obtain rfl := Host.Outcome.next.inj ((coreStep_idle henabled).symm.trans hc)
    exact absurd ht hrun

/-- Only the tick, which is the core's turn, enters Halted. -/
theorem takeAction_of_halted {a : HostAction} {s t : State} (hrun : s.sched ≠ .halted)
    (ha : takeAction a s = .next t) (ht : t.sched = .halted) : cycle s = .next t := by
  cases a with
  | tick => exact coreStep_of_halted hrun ha ht
  | reset => cases ha; cases ht
  | load addr b => cases ha; exact absurd ((hostLoad_sched addr b s).symm.trans ht) hrun
  | start => cases ha; exact absurd ((hostStart_sched s).symm.trans ht) hrun
  | toggle => cases ha; exact absurd ht (hostToggle_sched_ne_halted hrun)

theorem step_of_halted {s t : State} (hrun : s.sched ≠ .halted) (hstep : step s = .next t) (ht : t.sched = .halted) :
    cycle s.begin = .next t := by
  cases ha : s.hostActions with
  | nil => exact coreStep_of_halted (s := s.begin) hrun (step_coreTurn (.inl ha) ▸ hstep) ht
  | cons a rest => exact takeAction_of_halted (s := s.begin) hrun (step_cons ha ▸ hstep) ht

/-- Settles O41: the step is a cycle that halts, and so the halt entry on the state before it. -/
theorem fatalHaltIsPrecise : Obligations.FatalHaltIsPrecise := by
  intro s t hstep hrun ht
  obtain ⟨c, hne, -, rfl⟩ := cycle_of_halted (s := s.begin) hrun (step_of_halted hrun hstep ht) ht
  exact ⟨⟨rfl, rfl, rfl, rfl, rfl, rfl⟩, rfl, hne, rfl, rfl, rfl, rfl, rfl⟩

/-! ### The way out of Halted (R189) -/

/-- A halted machine is started and not armed, so that every action but the reset leaves it as it is. -/
theorem takeAction_halted {a : HostAction} {s : State} (hinv : Inv s) (hhalted : s.sched = .halted)
    (hreset : a ≠ .reset) : takeAction a s = .next s := by
  have hstarted := hinv.haltedStarted hhalted
  cases a with
  | tick => exact coreStep_idle (State.cycleEnabled_eq_false (hinv.haltedNotArmed hhalted))
  | reset => exact absurd rfl hreset
  | load addr b => exact congrArg _ (hostLoad_closed b (.inl hstarted))
  | start => exact congrArg _ (hostStart_of_started hstarted)
  | toggle => exact congrArg _ (hostToggle_halted hhalted)

/-- Settles O42, by the host's next action: none pending leaves the core idle, and a reset puts every piece of state to
its reset value. -/
theorem haltedIsLeftOnlyByReset : Obligations.HaltedIsLeftOnlyByReset := by
  intro s hinv hhalted
  refine ⟨fun hreset => ?stays, fun hreset => ?leaves⟩
  case stays =>
    cases ha : s.hostActions with
    | nil => exact coreIsIdleUnlessArmed s (.inl ha) (hinv.haltedNotArmed hhalted)
    | cons a rest =>
      rw [step_cons ha]
      exact takeAction_halted (begin_inv hinv) hhalted fun e => hreset (by rw [ha, e]; rfl)
  case leaves =>
    obtain ⟨rest, ha⟩ := List.head?_eq_some_iff.1 hreset
    exact ⟨_, step_cons ha, rfl, rfl⟩

end Sys2Proof.Machine
end

section
/-! PROOFS of the reset family (70_reset_and_hazards.md R210 to R212): the reset event, and the boot protocol as a run
through its four parts. -/

namespace Sys2Proof.Machine

/-! ### The reset event (R210) -/

/-- From any state: what the event keeps is the model's own (log entry 12). -/
theorem hostReset_holdsResetValues (s : State) : HoldsResetValues s.hostReset := { resetHoldsTheResetValues with }

theorem step_reset {s : State} {rest : List HostAction} (h : s.hostActions = .reset :: rest) :
    step s = .next { s.hostReset with hostActions := rest } := by
  rw [step_cons h, State.begin_of_cons h]
  rfl

/-- Settles O46: the step is the reset event, whatever the state. -/
theorem resetEventRestoresTheResetState : Obligations.ResetEventRestoresTheResetState := by
  intro s rest ha
  exact ⟨_, step_reset ha, { hostReset_holdsResetValues s with }, rfl⟩

/-! ### The boot protocol (R211, R212) -/

theorem imageSizesOk_iff {font rom : List Byte} :
    imageSizesOk font rom = true ↔ font.length ≤ 512 ∧ rom.length ≤ 3584 := by
  rw [imageSizesOk, Bool.and_eq_true, decide_eq_true_iff, decide_eq_true_iff]
  exact Iff.rfl

/-- The memory boot leaves: the font's loads, then the program's, on the empty memory of reset. -/
def bootedMemory (font rom : List Byte) : Memory :=
  loadedMemory Config.progBase rom (loadedMemory Config.fontBase font State.reset.mem)

/-- The state boot leaves. -/
def State.booted (font rom : List Byte) (s : State) : State :=
  { s.hostReset with mem := bootedMemory font rom, started := true, armed := true, hostActions := [] }

/-- The program lies from 512; below it and beyond it the font reads, which is 0 past its end. -/
theorem bootedMemory_read {font rom : List Byte} (hfont : font.length ≤ 512) (hrom : rom.length ≤ 3584) (a : Nat) :
    (bootedMemory font rom).read a =
      if 512 ≤ a ∧ a < 512 + rom.length then rom.getD (a - 512) 0#8 else font.getD a 0#8 := by
  have hfontRead : (loadedMemory 0 font []).read a = font.getD a 0#8 := by
    rw [loadedMemory_read font 0 [] (by omega)]
    split
    · rfl
    next houtside => rw [List.getD_eq_default _ _ (by omega), Memory.read_nil]
  rw [← hfontRead]
  exact loadedMemory_read rom 512 _ (by omega) a

theorem step_start {s : State} {rest : List HostAction} (h : s.hostActions = .start :: rest) (hs : s.started = false) :
    step s = .next { s.begin with started := true, armed := decide (s.sched = .running) } :=
  (step_cons h).trans (congrArg _ (hostStart_of_not_started (s := s.begin) hs))

/-- The run of the boot protocol: the reset, the font's loads, the program's loads, the start. -/
theorem stepN_boot {s : State} {font rom : List Byte} (hfont : font.length ≤ 512) (hrom : rom.length ≤ 3584)
    (ha : s.hostActions = bootActions font rom) :
    stepN (font.length + rom.length + 2) s = .next (s.booted font rom) := by
  have hreset := step_reset ha
  have hfontLoads := stepN_loads font Config.fontBase (loadActions Config.progBase rom ++ [.start])
    { s.hostReset with
      hostActions := loadActions Config.fontBase font ++ (loadActions Config.progBase rom ++ [.start]) }
    rfl (by simp only [Config.fontBase]; omega) rfl rfl
  have hromLoads := stepN_loads rom Config.progBase [.start]
    { s.hostReset with
      mem := loadedMemory Config.fontBase font State.reset.mem
      hostActions := loadActions Config.progBase rom ++ [.start] }
    rfl (by simp only [Config.progBase]; omega) rfl rfl
  have hstart : step { s.hostReset with mem := bootedMemory font rom, hostActions := [.start] } =
      .next (s.booted font rom) := step_start rfl rfl
  rw [List.append_assoc] at hreset
  calc stepN (font.length + rom.length + 2) s
    _ = stepN (font.length + (rom.length + 1)) _ := stepN_succ hreset
    _ = stepN (rom.length + 1) _ := stepN_add hfontLoads
    _ = stepN 1 _ := stepN_add hromLoads
    _ = .next (s.booted font rom) := stepN_succ hstart

/-- Settles O51: the boot's run ends in the reset state with the images loaded, started and armed. -/
theorem bootLoadsFontAndProgram : Obligations.BootLoadsFontAndProgram := by
  intro s font rom hsizes ha
  obtain ⟨hfont, hrom⟩ := imageSizesOk_iff.1 hsizes
  have hr := hostReset_holdsResetValues s
  exact ⟨_, stepN_boot hfont hrom ha, bootedMemory_read hfont hrom, hr.regs, hr.index, hr.pc, hr.stack, hr.display,
    hr.refresh, hr.sched, hr.faultCause, hr.faultPc, hr.faultOpcode, rfl, rfl, rfl⟩

end Sys2Proof.Machine
end
